-- ==== Sys2Proof/Word.lean ====
section
/-! DEFINITION. The word types of the codec (spec/00_scope.md R9, spec/10_state.md R10): every value of this
hardware is unsigned, so plain bit vectors are all there is. -/

namespace Sys2Proof

/-- One bit; bit operations are `^` and `&` on it (R70). -/
abbrev Bit := BitVec 1

/-- A nibble: the unit the block codec encodes (glossary). -/
abbrev Nibble := BitVec 4

/-- A byte: the unit of every buffer access (R34) and of the CW8 container (R48). -/
abbrev Byte := BitVec 8

/-- A host register is read and written as one 32-bit value (R10, R41). -/
abbrev Word := BitVec 32

end Sys2Proof
end

