-- ==== Sys2Proof/Machine/Bits.lean ====
section
/-! DEFINITION. Bit fields of R9: `v[i]`, `v[hi:lo]`, one-bit update, `xorreduce`. -/

namespace Sys2Proof.Machine

/-- `v[i]` (R9). -/
def bit {w : Nat} (v : BitVec w) (i : Nat) : Bit := v.extractLsb' i 1

/-- `v[k] <- b` on a byte (R78's `ACC[…] <- o`). -/
def withBit (v : Byte) (k : Nat) (b : Bit) : Byte := (v &&& ~~~(1#8 <<< k)) ||| (b.setWidth 8 <<< k)

/-- `xorreduce(v)` of a 3-bit value (R9, R70). -/
def xorReduce (v : BitVec 3) : Bit := bit v 2 ^^^ bit v 1 ^^^ bit v 0

/-- `B[7:4]`, the high nibble (R32). -/
def hiNibble (b : Byte) : Nibble := b.extractLsb' 4 4

/-- `B[3:0]`, the low nibble (R32). -/
def loNibble (b : Byte) : Nibble := b.extractLsb' 0 4

end Sys2Proof.Machine
end

