-- ==== Sys2Proof/Config.lean ====
section
/-! DEFINITION. What an instance of the hardware fixes (spec/00_scope.md R5) and the free values: constants with no
body, one for each value the spec calls unspecified (spec/93_implementation_defined.md U9, U10). -/

namespace Sys2Proof

/-- What an instance fixes: the open parameters `IBUF_BYTES` and `OBUF_BYTES` (R5), each "an integer with
`1 <= … <= 2^24`", kept as the highest valid index, so that the bound is the type's own and no statement needs it as a
premise; and a serial number that tells the instances of a system apart (R40). -/
structure Params where
  /-- `IBUF_BYTES - 1`. -/
  ibufTop : Fin 16777216
  /-- `OBUF_BYTES - 1`. -/
  obufTop : Fin 16777216
  /-- The model's own: which instance this is. Only the free values below look at it, so that the unspecified bytes of one
  instance say nothing of another's. DESIGN CHOICE (log entry 14). -/
  serial : Nat := 0
  deriving DecidableEq, Repr

/-- `IBUF_BYTES`, the size of the input buffer memory (R5). -/
def Params.ibufBytes (p : Params) : Nat := p.ibufTop.val + 1

/-- `OBUF_BYTES`, the size of the output buffer memory (R5). -/
def Params.obufBytes (p : Params) : Nat := p.obufTop.val + 1

/-- The sizes that `Machine.State.reset` has: 16 and 16, as in spec/95_test_vectors.md section 2.4, with serial number 0.
DESIGN CHOICE (log entry 2): the spec leaves both sizes open; statements hold for every `Params`. -/
def Config.params : Params := { ibufTop := 15, obufTop := 15 }

/-- `PAYLOAD_BYTES` (R5): agreed between the host and its peer. "The hardware does not store or check it" and no rule
reads it, so nothing in the model does. -/
opaque Config.payloadBytes : Nat

/-- FREE VALUE (log entry 3; U9): the byte that `IBUF[index]` of instance `serial` holds after the `resets`-th reset until
the host writes it. DESIGN CHOICE (log entry 14): U9's draw is a function of these three, so two states with equal serial
and equal reset count hold equal unwritten bytes; the spec relates instances nowhere, and different serials are unrelated. -/
opaque Config.ibufPowerOn (serial resets index : Nat) : Byte

/-- FREE VALUE (log entry 3; U9): the byte that `OBUF[index]` of instance `serial` holds after the `resets`-th reset until
a command writes it. DESIGN CHOICE (log entry 14), as for `Config.ibufPowerOn`. -/
opaque Config.obufPowerOn (serial resets index : Nat) : Byte

/-- FREE VALUE (log entry 4; U10): what the `draw`-th unspecified read of instance `serial` returns if it is a register read
(R115). DESIGN CHOICE (log entry 14): U10's draw is a function of these two, so two states with equal serial and equal draw
count read equal values; the spec relates instances nowhere, and different serials are unrelated. -/
opaque Config.busyWord (serial draw : Nat) : Word

/-- FREE VALUE (log entry 4; U10): what the `draw`-th unspecified read of instance `serial` returns if it is a buffer read
(R115). DESIGN CHOICE (log entry 14), as for `Config.busyWord`. -/
opaque Config.busyByte (serial draw : Nat) : Byte

end Sys2Proof
end

