-- ==== Sys2Proof/Syntax.lean ====
section
/-! DEFINITION. The instructions: the seven commands of spec/opcode_table.json (spec/30_encoding.md R46). A command
has no register operand and no immediate (R45); its operands are fixed registers and IBUF (R50). -/

namespace Sys2Proof

/-- The seven commands of R46, in the table's order. -/
inductive Instr where
  /-- ENCN, encode one nibble to a codeword (R66). -/
  | encn
  /-- DECC, decode one codeword to a nibble (R67). -/
  | decc
  /-- ENCB, block-encode a byte buffer (R68). -/
  | encb
  /-- DECB, block-decode a byte buffer (R69). -/
  | decb
  /-- CONV, convolutionally encode a byte buffer (R81). -/
  | conv
  /-- PENC, pipeline encode under CFG.SCHEME (R86). -/
  | penc
  /-- PDEC, pipeline decode under CFG.SCHEME (R87). -/
  | pdec
  deriving DecidableEq, Repr

end Sys2Proof
end

