-- ==== Sys2Proof/Machine/State.lean ====
section
/-! DEFINITION. The state of one instance (spec/10_state.md R10), what the host does to it (spec/30_encoding.md R54,
R55), the reasons to stop, and reset (R25, R110). All of it is plain data. -/

namespace Sys2Proof.Machine

/-- CFG.SCHEME (R15): 0 selects the block code, 1 the convolutional code. -/
inductive Scheme where
  | block
  | conv
  deriving DecidableEq, Repr

/-- STATUS.ERR (R13): the error code of the most recently completed command. Values 5 to 15 "never occur". -/
inductive ErrCode where
  /-- 0, NONE. -/
  | none
  /-- 1, INVALID_LENGTH (R96). -/
  | invalidLength
  /-- 2, SIZE_ERROR (R97). -/
  | sizeError
  /-- 3, ILLEGAL_CMD (R98). -/
  | illegalCmd
  /-- 4, UNSUPPORTED (R99). -/
  | unsupported
  deriving DecidableEq, Repr

/-- A buffer memory: (index, byte) pairs, indices strictly rising. An index that is not listed has not been written
since reset and holds its power-on byte (R25, log entry 3). -/
abbrev Memory := List Host.Cell

/-- The eight host-visible registers (R10). -/
inductive Reg where
  | cmd
  | cfg
  | status
  | arg
  | res
  | inLen
  | outLen
  | outBits
  deriving DecidableEq, Repr

/-- One host access, an indivisible event (R7). The first five are the lines of R54's table; a host write to OBUF has
no line there, and R24 says what becomes of it. -/
inductive Access where
  /-- `WR reg, v`. -/
  | regWrite (reg : Nat) (v : Word)
  /-- `RD reg`. -/
  | regRead (reg : Nat)
  /-- `WB i, b`. -/
  | ibufWrite (i : Nat) (b : Byte)
  /-- `RI i`. -/
  | ibufRead (i : Nat)
  /-- `RB j`. -/
  | obufRead (j : Nat)
  /-- A host write to `OBUF[j]`, "ignored" (R24, R115). -/
  | obufWrite (j : Nat) (b : Byte)
  deriving DecidableEq, Repr

/-- What the host does next: an access, the reset input, a pseudo-operation of R55, or one of three inner lines that
the pseudo-operations expand to (they stand for what the host does with the value it has just read). -/
inductive HostLine where
  | access (a : Access)
  /-- The reset input `rst` is asserted (R110, R111). -/
  | rst
  /-- `WAIT`. -/
  | wait
  /-- Inner line of `WAIT`: poll again if the STATUS just read has BUSY set. -/
  | pollAgain
  /-- `RUN op`. -/
  | run (op : Instr)
  /-- `LOAD b0 b1 …`. -/
  | load (bytes : List Byte)
  /-- `ENCN v`. -/
  | encn (v : Word)
  /-- `DECC v`. -/
  | decc (v : Word)
  /-- `FLIP i, k`. -/
  | flip (i k : Nat)
  /-- Inner line of `FLIP`: write back the byte just read with bit `k` inverted. -/
  | flipBack (i k : Nat)
  /-- `LOOPBACK`. -/
  | loopback
  /-- Inner line of `LOOPBACK`: copy as many bytes as the OUT_LEN just read says. -/
  | copyOut
  /-- Inner line of `LOOPBACK`: write the byte just read to `IBUF[j]`. -/
  | storeBack (j : Nat)
  deriving DecidableEq, Repr

/-- What a host read returned: a 32-bit register value or a buffer byte (R41). -/
inductive Returned where
  | word (v : Word)
  | byte (b : Byte)
  deriving DecidableEq, Repr

/-- The machine. Fields `params` to `obuf` are R5's parameters and R10's "complete state"; the rest is the model's own
and stands for what is outside the block: the host, the passing of time, and the counters of free values. -/
structure State where
  /-- The sizes of this instance (R5) and its serial number (model's own, log entry 14); no step changes them. -/
  params : Params
  /-- OPW, the latched command word (R14, R26). -/
  opw : Word
  /-- CFG.SCHEME (R15). -/
  scheme : Scheme
  /-- STATUS.BUSY (R13). -/
  busy : Bool
  /-- STATUS.DONE (R13). -/
  done : Bool
  /-- STATUS.ERR (R13). -/
  err : ErrCode
  /-- ARG[7:0] (R16). -/
  arg : Byte
  /-- RES[7:0] (R17). -/
  res : Byte
  /-- IN_LEN (R18). -/
  inLen : Word
  /-- OUT_LEN (R19). -/
  outLen : Word
  /-- OUT_BITS (R20). -/
  outBits : Word
  /-- SR, the shift register (R21). -/
  sr : BitVec 3
  /-- ACC, the output accumulator (R22). -/
  acc : Byte
  /-- NB, the output bit counter (R22). -/
  nb : Word
  /-- IBUF (R23). -/
  ibuf : Memory
  /-- OBUF (R24). -/
  obuf : Memory
  /-- Model's own: host moves that still land before the completion event of the command in execution (R118). -/
  latency : Nat
  /-- Model's own: the latencies of the commands not yet started, in order; 0 when the list has run out. -/
  latencies : List Nat
  /-- Model's own: what the host does next, in the order it issues it (R37). -/
  script : List HostLine
  /-- Model's own: what the host's reads returned, the newest first. -/
  returned : List Returned
  /-- Model's own: how many unspecified read values have been drawn (R115). -/
  draws : Nat
  /-- Model's own: how many times `rst` has been asserted since `State.reset`; selects the power-on bytes (R25). -/
  resets : Nat
  deriving DecidableEq, Repr

/-- Reasons the machine stops with a fault. There are none: "No condition in this core is fatal to the process" and "no
condition stops the hardware" (R95). -/
inductive Fault
  deriving DecidableEq, Repr

/-- Reasons a step has no meaning. -/
inductive Refusal where
  /-- Raised by an arm of `exec` that has no meaning yet; no arm raises it. Safe. -/
  | notModelled (mnemonic : String)
  deriving DecidableEq, Repr

/-- The state right after reset of an instance of the given parameters: the table of R25 (R110). The model's own fields have
an idle host and no latency (DESIGN CHOICE, log entries 2 and 5). -/
def State.resetWith (p : Params) : State where
  params := p
  opw := 0#32
  scheme := .block
  busy := false
  done := false
  err := .none
  arg := 0#8
  res := 0#8
  inLen := 0#32
  outLen := 0#32
  outBits := 0#32
  sr := 0#3
  acc := 0#8
  nb := 0#32
  ibuf := []
  obuf := []
  latency := 0
  latencies := []
  script := []
  returned := []
  draws := 0
  resets := 0

/-- The machine right after reset (R25, R110), with the sizes of `Config.params`. -/
def State.reset : State := State.resetWith Config.params

end Sys2Proof.Machine
end

