-- ==== Sys2Proof/Machine/Ops.lean ====
section
/-! DEFINITION. The named operations over the two buffer memories and the registers, the start and completion events
(spec/10_state.md R26, R28) and the error completion (spec/60_exceptions.md R102), the hardware's only exception. -/

namespace Sys2Proof.Machine

/-- The byte written at index `i` since reset, if any. -/
def Memory.get? : Memory → Nat → Option Byte
  | [], _ => none
  | (a, b) :: m, i => if a = i then some b else Memory.get? m i

/-- Write byte `v` at index `i`, keeping the indices rising. -/
def Memory.set : Memory → Nat → Byte → Memory
  | [], i, v => [(i, v)]
  | (a, b) :: m, i, v =>
    if i < a then (i, v) :: (a, b) :: m
    else if i = a then (i, v) :: m
    else (a, b) :: Memory.set m i v

/-- The canonical form of a memory: indices strictly rising. What an unlisted index holds is a free value (log entry 3),
so no listed byte can be known to equal it. -/
abbrev Memory.wf (m : Memory) : Prop := List.Pairwise (fun x y : Host.Cell => x.1 < y.1) m

/-- Every listed index lies inside a memory of `n` bytes (R23, R24). -/
abbrev Memory.inside (m : Memory) (n : Nat) : Prop := ∀ c ∈ m, c.1 < n

/-- `IBUF[i]` (R23): the byte written last, or the unspecified byte it holds since reset (R25, R116; log entries 3, 14). -/
def State.ibufByte (s : State) (i : Nat) : Byte :=
  (Memory.get? s.ibuf i).getD (Config.ibufPowerOn s.params.serial s.resets i)

/-- `OBUF[j]` (R24): the byte written last, or the unspecified byte it holds since reset (R25; log entries 3, 14). -/
def State.obufByte (s : State) (j : Nat) : Byte :=
  (Memory.get? s.obuf j).getD (Config.obufPowerOn s.params.serial s.resets j)

/-- The host stores a byte in IBUF (R23). -/
def State.writeIbuf (s : State) (i : Nat) (b : Byte) : State := { s with ibuf := Memory.set s.ibuf i b }

/-- `MemWrite(OBUF, j, 1, b)` (R9, R24). -/
def State.writeObuf (s : State) (j : Nat) (b : Byte) : State := { s with obuf := Memory.set s.obuf j b }

/-- `RES[7:0] <- b` (R17). -/
def State.setRes (s : State) (b : Byte) : State := { s with res := b }

/-- `OUT_LEN <- bytes; OUT_BITS <- bits` (R19, R20). Neither wraps (R71). -/
def State.setOutput (s : State) (bytes bits : Nat) : State :=
  { s with outLen := BitVec.ofNat 32 bytes, outBits := BitVec.ofNat 32 bits }

/-- The start event's own writes (R26): "`OPW <- w`; `STATUS.BUSY <- 1`; `STATUS.DONE <- 0`; `STATUS.ERR <- 0`". -/
def State.latchCommand (s : State) (w : Word) : State := { s with opw := w, busy := true, done := false, err := .none }

/-- The start event, with the command's latency taken from the schedule (log entry 5). -/
def State.start (s : State) (w : Word) : State :=
  { s.latchCommand w with latency := s.latencies.headD 0, latencies := s.latencies.tail }

/-- The completion event's own writes (R28): "`STATUS.ERR <- ` the command's error code; `STATUS.BUSY <- 0`;
`STATUS.DONE <- 1`". -/
def State.complete (s : State) (e : ErrCode) : State := { s with err := e, busy := false, done := true }

/-- `raise e` (R102): "the completion event with these writes and no others: `OUT_LEN <- 0`; `OUT_BITS <- 0`;
`STATUS.ERR <- E`; `STATUS.BUSY <- 0`; `STATUS.DONE <- 1`". There is no return from it (R103): the next start event
sets STATUS.ERR to 0 (`State.latchCommand`). -/
def State.raise (s : State) (e : ErrCode) : State := (s.setOutput 0 0).complete e

/-- The host receives what its read returned. -/
def State.giveBack (s : State) (r : Returned) : State := { s with returned := r :: s.returned }

/-- One unspecified read value has been drawn (R115). -/
def State.drawn (s : State) : State := { s with draws := s.draws + 1 }

/-- `rst` (R110, R111): every field of R25's table at its reset value, both memories unspecified anew; an executing
command is abandoned. What is outside the block (the host, its schedule, the counters) goes on. -/
def State.assertReset (s : State) : State :=
  { State.resetWith s.params with
    latencies := s.latencies, script := s.script, returned := s.returned, draws := s.draws, resets := s.resets + 1 }

end Sys2Proof.Machine
end

