-- ==== Sys2Proof/Machine/Operands.lean ====
section
/-! DEFINITION. Operand assembly (spec/30_encoding.md R48, R50): which register bits and buffer bytes a command reads,
and how nibble bits, data bits and codeword positions correspond. -/

namespace Sys2Proof.Machine

/-- Data bit `d_i` of a nibble, `i` from 1 to 4: "data bit `d_i` is nibble bit `i - 1`" (R50). -/
def dataBit (n : Nibble) (i : Nat) : Bit := bit n (i - 1)

/-- Data bits back to a nibble: "`n = {d4, d3, d2, d1}`" (R50). -/
def nibbleOfData (d1 d2 d3 d4 : Bit) : Nibble := d4 ++ d3 ++ d2 ++ d1

/-- The CW8 layout: "`c[7:0] = {0, d4, d3, d2, p3, d1, p2, p1}`" (R48). -/
def codewordOf (p1 p2 d1 p3 d2 d3 d4 : Bit) : Byte := 0#1 ++ d4 ++ d3 ++ d2 ++ p3 ++ d1 ++ p2 ++ p1

/-- The nibble of a 7-bit codeword: "`{c[6], c[5], c[4], c[2]}`" (R50, R64). -/
def nibbleOfCodeword (c : BitVec 7) : Nibble := nibbleOfData (bit c 2) (bit c 4) (bit c 5) (bit c 6)

/-- ENCN's operand: "the nibble is `ARG[3:0]`; `ARG[7:4]` is ignored" (R50). -/
def State.argNibble (s : State) : Nibble := loNibble s.arg

/-- DECC's operand: `ARG[7:0]`, of which the decoder ignores bit 7 (R50, R67). -/
def State.argCodeword (s : State) : Byte := s.arg

/-- `L <- IN_LEN`, the number of input bytes of a buffer command (R18). -/
def State.inputLength (s : State) : Nat := s.inLen.toNat

end Sys2Proof.Machine
end

