-- ==== Sys2Proof/Machine/BlockCodec.lean ====
section
/-! DEFINITION. The block codec (spec/40_block_codec.md): the pure functions R60 to R64 and the commands ENCN, DECC,
ENCB, DECB (R66 to R69). -/

namespace Sys2Proof.Machine

/-- `p1 = d1 ^ d2 ^ d4` (R60). -/
def parity1 (d1 d2 d4 : Bit) : Bit := d1 ^^^ d2 ^^^ d4

/-- `p2 = d1 ^ d3 ^ d4` (R60). -/
def parity2 (d1 d3 d4 : Bit) : Bit := d1 ^^^ d3 ^^^ d4

/-- `p3 = d2 ^ d3 ^ d4` (R60). -/
def parity3 (d2 d3 d4 : Bit) : Bit := d2 ^^^ d3 ^^^ d4

/-- `enc_nibble(n)`, the CW8 codeword of a nibble (R61). -/
def encNibble (n : Nibble) : Byte :=
  let d1 := dataBit n 1
  let d2 := dataBit n 2
  let d3 := dataBit n 3
  let d4 := dataBit n 4
  codewordOf (parity1 d1 d2 d4) (parity2 d1 d3 d4) d1 (parity3 d2 d3 d4) d2 d3 d4

/-- `syndrome(c) = {s3, s2, s1}` (R62); `c[7]` does not enter. -/
def syndrome (c : Byte) : BitVec 3 :=
  let s1 := bit c 0 ^^^ bit c 2 ^^^ bit c 4 ^^^ bit c 6
  let s2 := bit c 1 ^^^ bit c 2 ^^^ bit c 5 ^^^ bit c 6
  let s3 := bit c 3 ^^^ bit c 4 ^^^ bit c 5 ^^^ bit c 6
  s3 ++ s2 ++ s1

/-- `correct(c)` (R63): position `S` is container bit `S - 1`. -/
def correct (c : Byte) : BitVec 7 :=
  if syndrome c = 0#3 then c.extractLsb' 0 7
  else c.extractLsb' 0 7 ^^^ (1#7 <<< ((syndrome c).toNat - 1))

/-- `dec_codeword(c)`, total on all byte values (R64). -/
def decCodeword (c : Byte) : Nibble := nibbleOfCodeword (correct c)

/-- ENCN (R66). -/
def execEncn (s : State) : Host.Outcome State Fault Refusal :=
  .next ((s.setRes (encNibble s.argNibble)).complete .none)

/-- DECC (R67). -/
def execDecc (s : State) : Host.Outcome State Fault Refusal :=
  .next ((s.setRes ((decCodeword s.argCodeword).setWidth 8)).complete .none)

/-- R68's loop over the input bytes, `n` of them left and `i` the next index. -/
def blockEncodeLoop : Nat → Nat → State → State
  | 0, _, s => s
  | n + 1, i, s =>
    let B := s.ibufByte i
    blockEncodeLoop n (i + 1)
      ((s.writeObuf (2 * i) (encNibble (hiNibble B))).writeObuf (2 * i + 1) (encNibble (loNibble B)))

/-- R68's pseudocode, from the checks to the completion event. -/
def blockEncode (s : State) : State :=
  let L := s.inputLength
  if s.params.ibufBytes < L then s.raise .sizeError
  else if s.params.obufBytes < 2 * L then s.raise .sizeError
  else ((blockEncodeLoop L 0 s).setOutput (2 * L) (16 * L)).complete .none

/-- ENCB (R68). -/
def execEncb (s : State) : Host.Outcome State Fault Refusal := .next (blockEncode s)

/-- R69's loop over the pairs of codewords, `n` of them left and `i` the next output index. -/
def blockDecodeLoop : Nat → Nat → State → State
  | 0, _, s => s
  | n + 1, i, s =>
    let H := s.ibufByte (2 * i)
    let W := s.ibufByte (2 * i + 1)
    blockDecodeLoop n (i + 1) (s.writeObuf i (decCodeword H ++ decCodeword W))

/-- R69's pseudocode, from the checks (in R101's order) to the completion event. -/
def blockDecode (s : State) : State :=
  let L := s.inputLength
  if s.params.ibufBytes < L then s.raise .sizeError
  else if L % 2 = 1 then s.raise .invalidLength
  else if s.params.obufBytes < L / 2 then s.raise .sizeError
  else ((blockDecodeLoop (L / 2) 0 s).setOutput (L / 2) (8 * (L / 2))).complete .none

/-- DECB (R69). -/
def execDecb (s : State) : Host.Outcome State Fault Refusal := .next (blockDecode s)

end Sys2Proof.Machine
end

