-- ==== Sys2Proof/Machine/ConvEncoder.lean ====
section
/-! DEFINITION. The convolutional encoder (spec/41_conv_encoder.md): the per-bit step R75, the order of steps R77, the
output packer R78, the tail R79 and the command CONV (R81). -/

namespace Sys2Proof.Machine

/-- Generator polynomial G1 = 0b111 (R4, R53). -/
def generator1 : BitVec 3 := 0b111#3

/-- Generator polynomial G2 = 0b101 (R4, R53). -/
def generator2 : BitVec 3 := 0b101#3

/-- The tail length `K - 1 = 2` (R4, R79). -/
def tailLength : Nat := 2

/-- `sr' = ((sr << 1) | b)[2:0]` (R75); the shift is on naturals, so it is made one bit wider before the slice. -/
def shiftIn (sr : BitVec 3) (b : Bit) : BitVec 3 := ((sr.setWidth 4 <<< 1) ||| b.setWidth 4).setWidth 3

/-- `conv_step(sr, b) = (sr', o1, o2)` (R75); the outputs are computed from the register after the shift. -/
def convStep (sr : BitVec 3) (b : Bit) : BitVec 3 × Bit × Bit :=
  let sr' := shiftIn sr b
  (sr', xorReduce (sr' &&& generator1), xorReduce (sr' &&& generator2))

/-- `SR <- 0; ACC <- 0; NB <- 0`, the first action of CONV (R81). -/
def State.clearEncoder (s : State) : State := { s with sr := 0#3, acc := 0#8, nb := 0#32 }

/-- `SR <- v` (R21). -/
def State.setSr (s : State) (v : BitVec 3) : State := { s with sr := v }

/-- `ACC[7 - (NB mod 8)] <- o; NB <- NB + 1`, the first half of `emit` (R78). -/
def State.pushBit (s : State) (o : Bit) : State :=
  { s with acc := withBit s.acc (7 - s.nb.toNat % 8) o, nb := s.nb + 1#32 }

/-- `ACC <- 0` (R78). -/
def State.clearAcc (s : State) : State := { s with acc := 0#8 }

/-- `emit(o)` (R78). -/
def State.emit (s : State) (o : Bit) : State :=
  let t := s.pushBit o
  if t.nb.toNat % 8 = 0 then (t.writeObuf (t.nb.toNat / 8 - 1) t.acc).clearAcc else t

/-- One encoder step: `(SR, o1, o2) <- conv_step(SR, b); emit(o1); emit(o2)` (R77, R81). -/
def convFeed (b : Bit) (s : State) : State :=
  let r := convStep s.sr b
  ((s.setSr r.1).emit r.2.1).emit r.2.2

/-- The steps for bits `k - 1` down to 0 of a byte (R77: most significant bit first). -/
def convFeedByte (B : Byte) : Nat → State → State
  | 0, s => s
  | k + 1, s => convFeedByte B k (convFeed (bit B k) s)

/-- R81's loop over the input bytes, `n` of them left and `i` the next index. -/
def convLoop : Nat → Nat → State → State
  | 0, _, s => s
  | n + 1, i, s => convLoop n (i + 1) (convFeedByte (s.ibufByte i) 8 s)

/-- The tail: that many steps with `b = 0` (R79). -/
def convTail : Nat → State → State
  | 0, s => s
  | n + 1, s => convTail n (convFeed 0#1 s)

/-- `if NB mod 8 != 0: MemWrite(OBUF, NB div 8, 1, ACC)` (R78). -/
def convFlush (s : State) : State :=
  if s.nb.toNat % 8 = 0 then s else s.writeObuf (s.nb.toNat / 8) s.acc

/-- All the steps of one encode, from the cleared register to the last output byte (R77 to R79). -/
def convRun (s : State) : State := convFlush (convTail tailLength (convLoop s.inputLength 0 s.clearEncoder))

/-- `OUT_BITS <- NB; OUT_LEN <- ceil(NB / 8)` (R80, R81). -/
def convLengths (s : State) : State := s.setOutput ((s.nb.toNat + 7) / 8) s.nb.toNat

/-- R81's pseudocode, from the checks to the completion event. -/
def convEncode (s : State) : State :=
  let L := s.inputLength
  if s.params.ibufBytes < L then s.raise .sizeError
  else if s.params.obufBytes < 2 * L + 1 then s.raise .sizeError
  else (convLengths (convRun s)).complete .none

/-- CONV (R81). -/
def execConv (s : State) : Host.Outcome State Fault Refusal := .next (convEncode s)

end Sys2Proof.Machine
end

