-- ==== Sys2Proof/Machine/Pipeline.lean ====
section
/-! DEFINITION. The codec pipeline (spec/42_pipeline.md): PENC and PDEC, which dispatch on CFG.SCHEME (R85). -/

namespace Sys2Proof.Machine

/-- PENC (R86): "if CFG.SCHEME == 0 then behave exactly as ENCB else behave exactly as CONV". -/
def execPenc (s : State) : Host.Outcome State Fault Refusal :=
  match s.scheme with
  | .block => .next (blockEncode s)
  | .conv => .next (convEncode s)

/-- PDEC (R87): "if CFG.SCHEME == 0 then behave exactly as DECB else raise UNSUPPORTED", before any length check. -/
def execPdec (s : State) : Host.Outcome State Fault Refusal :=
  match s.scheme with
  | .block => .next (blockDecode s)
  | .conv => .next (s.raise .unsupported)

end Sys2Proof.Machine
end

