-- ==== Sys2Proof/Machine/Dispatch.lean ====
section
/-! DEFINITION. One arm per command (spec/30_encoding.md R46). -/

namespace Sys2Proof.Machine

/-- The execution and completion of a decoded command (R27, R28). -/
def exec (i : Instr) (s : State) : Host.Outcome State Fault Refusal :=
  match i with
  | .encn => Sys2Proof.Machine.execEncn s
  | .decc => Sys2Proof.Machine.execDecc s
  | .encb => Sys2Proof.Machine.execEncb s
  | .decb => Sys2Proof.Machine.execDecb s
  | .conv => Sys2Proof.Machine.execConv s
  | .penc => Sys2Proof.Machine.execPenc s
  | .pdec => Sys2Proof.Machine.execPdec s

end Sys2Proof.Machine
end

