-- ==== Sys2Proof/WellFormed.lean ====
section
/-! DEFINITION. What makes a command word well formed (spec/30_encoding.md R45 to R47). An `Instr` carries no operand,
so every term of `Instr` is well formed; what can be ill formed is the 32-bit word the host writes to CMD. -/

namespace Sys2Proof

/-- `w[31:3]`, the reserved field, "must be written as 0" (R45). -/
def CommandWord.reservedClear (w : Word) : Bool := w.extractLsb' 3 29 == 0#29

/-- `w[2:0]`, the operation code; 0 selects no command (R46, R47). -/
def CommandWord.opDefined (w : Word) : Bool := w.extractLsb' 0 3 != 0#3

/-- A word that is one of the seven of R46. -/
def CommandWord.wellFormed (w : Word) : Bool := CommandWord.reservedClear w && CommandWord.opDefined w

/-- No command has an operand that could be ill formed (R45), so each constructor is well formed as it stands. -/
def Instr.wellFormed : Instr → Bool
  | .encn => true
  | .decc => true
  | .encb => true
  | .decb => true
  | .conv => true
  | .penc => true
  | .pdec => true

end Sys2Proof
end

