-- ==== Sys2Proof/Decode.lean ====
section
/-! DEFINITION. The decoder of command words, total on all 32-bit values (spec/30_encoding.md R45 to R47), and the
encoder written from R46's table. There is no instruction fetch and no byte order of a command word (R33): the word is
the 32-bit value the host wrote to CMD. -/

namespace Sys2Proof

/-- Why a command word is none of the seven (R47); either way the machine answers with ILLEGAL_CMD (R98). -/
inductive DecodeError where
  /-- Some bit of `w[31:3]` is set. -/
  | reservedBitsSet
  /-- `OP = 0` with the reserved field clear. -/
  | operationZero
  deriving DecidableEq, Repr

/-- The decoder of R46 and R47. The reserved field is looked at first; the order is not visible (R98 has one code). -/
def decode (w : Word) : Except DecodeError Instr :=
  if w.extractLsb' 3 29 ≠ 0#29 then .error .reservedBitsSet
  else
    match (w.extractLsb' 0 3).toNat with
    | 1 => .ok .encn
    | 2 => .ok .decc
    | 3 => .ok .encb
    | 4 => .ok .decb
    | 5 => .ok .conv
    | 6 => .ok .penc
    | 7 => .ok .pdec
    | _ => .error .operationZero

/-- The word column of R46's table. -/
def encode : Instr → Word
  | .encn => 0x00000001#32
  | .decc => 0x00000002#32
  | .encb => 0x00000003#32
  | .decb => 0x00000004#32
  | .conv => 0x00000005#32
  | .penc => 0x00000006#32
  | .pdec => 0x00000007#32

/-- One row of spec/opcode_table.json: a word `w` is the row's command when `w & mask = pattern`. -/
structure OpcodeRow where
  mask : Word
  pattern : Word
  command : Instr
  deriving DecidableEq, Repr

/-- spec/opcode_table.json, row by row. -/
def opcodeTable : List OpcodeRow :=
  [ ⟨0xFFFFFFFF#32, 0x00000001#32, .encn⟩, ⟨0xFFFFFFFF#32, 0x00000002#32, .decc⟩,
    ⟨0xFFFFFFFF#32, 0x00000003#32, .encb⟩, ⟨0xFFFFFFFF#32, 0x00000004#32, .decb⟩,
    ⟨0xFFFFFFFF#32, 0x00000005#32, .conv⟩, ⟨0xFFFFFFFF#32, 0x00000006#32, .penc⟩,
    ⟨0xFFFFFFFF#32, 0x00000007#32, .pdec⟩ ]

/-- The value the host lays out for a table row: the low `nbits` bits of `w`, every bit above them 0. -/
def tableValue (nbits w : Nat) : Nat := w % 2 ^ nbits

/-- The host's door to the decoder. A value that does not fit in the 32 bits of a command word is no command word. -/
def decodeTableWord (nbits w : Nat) : Option Instr :=
  if tableValue nbits w < 2 ^ 32 then
    match decode (BitVec.ofNat 32 (tableValue nbits w)) with
    | .ok i => some i
    | .error _ => none
  else none

end Sys2Proof
end

