-- ==== Sys2Proof/Machine/Flags.lean ====
section
/-! DEFINITION. Every flag of the hardware is a STATUS field (spec/10_state.md R13); here are the field values and the
32-bit values that the registers read as (R13 to R20). -/

namespace Sys2Proof.Machine

/-- SCHEME as a bit: "0 selects the block code, 1 selects the convolutional code" (R15). -/
def Scheme.toBit : Scheme → Bit
  | .block => 0#1
  | .conv => 1#1

/-- `CFG.SCHEME <- w[0]` (R15). -/
def Scheme.ofBit (b : Bit) : Scheme := if b = 0#1 then .block else .conv

/-- The numbers of STATUS.ERR (R13). -/
def ErrCode.code : ErrCode → BitVec 4
  | .none => 0#4
  | .invalidLength => 1#4
  | .sizeError => 2#4
  | .illegalCmd => 3#4
  | .unsupported => 4#4

/-- The value STATUS reads as (R13): `[0]` BUSY, `[1]` DONE, `[3:2]` 0, `[7:4]` ERR, `[31:8]` 0. -/
def State.statusWord (s : State) : Word :=
  0#24 ++ s.err.code ++ 0#2 ++ BitVec.ofBool s.done ++ BitVec.ofBool s.busy

/-- The number of a register (R10, R54). -/
def Reg.number : Reg → Nat
  | .cmd => 0
  | .cfg => 1
  | .status => 2
  | .arg => 3
  | .res => 4
  | .inLen => 5
  | .outLen => 6
  | .outBits => 7

/-- The register of a number; "register numbers 8 and above are unassigned" (R36). -/
def Reg.ofNumber : Nat → Option Reg
  | 0 => some .cmd
  | 1 => some .cfg
  | 2 => some .status
  | 3 => some .arg
  | 4 => some .res
  | 5 => some .inLen
  | 6 => some .outLen
  | 7 => some .outBits
  | _ => none

/-- The 32-bit value of a register at the host interface while idle: CMD reads 0 (R14), reserved bits read 0 (R36). -/
def State.regWord (s : State) : Reg → Word
  | .cmd => 0#32
  | .cfg => s.scheme.toBit.setWidth 32
  | .status => s.statusWord
  | .arg => s.arg.setWidth 32
  | .res => s.res.setWidth 32
  | .inLen => s.inLen
  | .outLen => s.outLen
  | .outBits => s.outBits

end Sys2Proof.Machine
end

