-- ==== Sys2Proof/Machine/HostPort.lean ====
section
/-! DEFINITION. The host's side: register and buffer accesses (spec/10_state.md R14 to R24, spec/20_memory.md R36,
spec/70_reset_and_hazards.md R115), the transaction encoding of R54 and the pseudo-operations of R55. -/

namespace Sys2Proof.Machine

/-- A host write to a register. "Ignored" while BUSY (R115); a write to a read-only register is ignored (R36). -/
def State.writeReg (s : State) (r : Reg) (v : Word) : State :=
  if s.busy then s
  else
    match r with
    | .cmd => s.start v
    | .cfg => { s with scheme := Scheme.ofBit (bit v 0) }
    | .status => s
    | .arg => { s with arg := v.setWidth 8 }
    | .res => s
    | .inLen => { s with inLen := v }
    | .outLen => s
    | .outBits => s

/-- A host write to a register number; unassigned numbers ignore it (R36). -/
def State.hostRegWrite (s : State) (n : Nat) (v : Word) : State :=
  match Reg.ofNumber n with
  | some r => s.writeReg r v
  | none => s

/-- A host read of a register number. While BUSY only STATUS is readable and any other read returns an unspecified value
(R115, log entries 4 and 14); while idle an unassigned number reads 0 (R36). -/
def State.hostRegRead (s : State) (n : Nat) : State :=
  if s.busy ∧ Reg.ofNumber n ≠ some .status then (s.giveBack (.word (Config.busyWord s.params.serial s.draws))).drawn
  else
    match Reg.ofNumber n with
    | some r => s.giveBack (.word (s.regWord r))
    | none => s.giveBack (.word 0#32)

/-- A host write of an IBUF byte: ignored while BUSY (R115) and at an index `>= IBUF_BYTES` (R23). -/
def State.hostIbufWrite (s : State) (i : Nat) (b : Byte) : State :=
  if s.busy then s else if s.params.ibufBytes ≤ i then s else s.writeIbuf i b

/-- A host read of an IBUF byte: unspecified while BUSY (R115, log entries 4, 14), 0 at an index `>= IBUF_BYTES` (R23). -/
def State.hostIbufRead (s : State) (i : Nat) : State :=
  if s.busy then (s.giveBack (.byte (Config.busyByte s.params.serial s.draws))).drawn
  else if s.params.ibufBytes ≤ i then s.giveBack (.byte 0#8)
  else s.giveBack (.byte (s.ibufByte i))

/-- A host read of an OBUF byte: unspecified while BUSY (R115, log entries 4, 14), 0 at an index `>= OBUF_BYTES` (R24). -/
def State.hostObufRead (s : State) (j : Nat) : State :=
  if s.busy then (s.giveBack (.byte (Config.busyByte s.params.serial s.draws))).drawn
  else if s.params.obufBytes ≤ j then s.giveBack (.byte 0#8)
  else s.giveBack (.byte (s.obufByte j))

/-- One host access (R7). "Host writes to OBUF are ignored" (R24). -/
def State.access (s : State) : Access → State
  | .regWrite n v => s.hostRegWrite n v
  | .regRead n => s.hostRegRead n
  | .ibufWrite i b => s.hostIbufWrite i b
  | .ibufRead i => s.hostIbufRead i
  | .obufRead j => s.hostObufRead j
  | .obufWrite _ _ => s

/-- The kinds of R54's transactions. -/
inductive TransactionKind where
  | RW
  | RR
  | IW
  | IR
  | OR
  deriving DecidableEq, Repr

/-- R54's triple `(kind, address, data)`; a read has no data. -/
structure Transaction where
  kind : TransactionKind
  address : Nat
  data : Option Word
  deriving DecidableEq, Repr

/-- The transaction of a line (R54). A host write to OBUF has no line and no transaction. -/
def Access.transaction : Access → Option Transaction
  | .regWrite n v => some ⟨.RW, n, some v⟩
  | .regRead n => some ⟨.RR, n, none⟩
  | .ibufWrite i b => some ⟨.IW, i, some (b.setWidth 32)⟩
  | .ibufRead i => some ⟨.IR, i, none⟩
  | .obufRead j => some ⟨.OR, j, none⟩
  | .obufWrite _ _ => none

/-- The line of a transaction; none where the data is missing, not wanted, or wider than the byte of an `IW`. -/
def Transaction.access : Transaction → Option Access
  | ⟨.RW, n, some v⟩ => some (.regWrite n v)
  | ⟨.RW, _, none⟩ => none
  | ⟨.RR, n, none⟩ => some (.regRead n)
  | ⟨.RR, _, some _⟩ => none
  | ⟨.IW, i, some v⟩ => if v.toNat < 256 then some (.ibufWrite i (v.setWidth 8)) else none
  | ⟨.IW, _, none⟩ => none
  | ⟨.IR, i, none⟩ => some (.ibufRead i)
  | ⟨.IR, _, some _⟩ => none
  | ⟨.OR, j, none⟩ => some (.obufRead j)
  | ⟨.OR, _, some _⟩ => none

/-- `WR reg, v` as a line. -/
def HostLine.wr (r : Reg) (v : Word) : HostLine := .access (.regWrite r.number v)

/-- `RD reg` as a line. -/
def HostLine.rd (r : Reg) : HostLine := .access (.regRead r.number)

/-- `WB i, b0; WB i+1, b1; …` (R55, LOAD). -/
def HostLine.storeBytes : Nat → List Byte → List HostLine
  | _, [] => []
  | i, b :: bs => .access (.ibufWrite i b) :: HostLine.storeBytes (i + 1) bs

/-- `RB j` giving `b`, `WB j, b` for `j` in `i .. i+n-1` (R55, LOOPBACK). -/
def HostLine.copyBytes : Nat → Nat → List HostLine
  | 0, _ => []
  | n + 1, i => .access (.obufRead i) :: .storeBack i :: HostLine.copyBytes n (i + 1)

/-- The 32-bit value the host read last; 0 before the first register read. -/
def lastWord : List Returned → Word
  | .word v :: _ => v
  | _ => 0#32

/-- The byte the host read last; 0 before the first buffer read. -/
def lastByte : List Returned → Byte
  | .byte b :: _ => b
  | _ => 0#8

/-- The expansions of R55. `r` is what the host has read so far, newest first; the inner lines use its head. An access
and `rst` are not expanded. -/
def HostLine.expand (r : List Returned) : HostLine → List HostLine
  | .access a => [.access a]
  | .rst => [.rst]
  | .wait => [.rd .status, .pollAgain]
  | .pollAgain => if bit (lastWord r) 0 = 1#1 then [.rd .status, .pollAgain] else []
  | .run op => [.wr .cmd (encode op), .wait]
  | .load bs => HostLine.storeBytes 0 bs ++ [.wr .inLen (BitVec.ofNat 32 bs.length)]
  | .encn v => [.wr .arg v, .run .encn, .rd .res]
  | .decc v => [.wr .arg v, .run .decc, .rd .res]
  | .flip i k => [.access (.ibufRead i), .flipBack i k]
  | .flipBack i k => [.access (.ibufWrite i (lastByte r ^^^ (1#8 <<< k)))]
  | .loopback => [.rd .outLen, .copyOut]
  | .copyOut => HostLine.copyBytes (lastWord r).toNat 0 ++ [.wr .inLen (lastWord r)]
  | .storeBack j => [.access (.ibufWrite j (lastByte r))]

/-- The host carries out one line: an access or a reset happens; any other line is replaced by its expansion. -/
def State.perform (s : State) (l : HostLine) : State :=
  match l with
  | .access a => s.access a
  | .rst => s.assertReset
  | .wait | .pollAgain | .run _ | .load _ | .encn _ | .decc _ | .flip _ _ | .flipBack _ _ | .loopback | .copyOut
  | .storeBack _ => { s with script := l.expand s.returned ++ s.script }

/-- One move of the host. With nothing left to do the block stays as it is, "all state held" (R106). -/
def State.hostMove (s : State) : State :=
  match s.script with
  | [] => s
  | l :: rest => { s with script := rest }.perform l

/-- One unit of the executing command's latency passes (R118, log entry 5). -/
def State.tick (s : State) : State := { s with latency := s.latency - 1 }

end Sys2Proof.Machine
end

