-- ==== Sys2Proof/Machine/Sequencer.lean ====
section
/-! DEFINITION. The sequencer (spec/10_state.md R26 to R28): who moves next, the host or the codec, and the completion
event of the latched command word. -/

namespace Sys2Proof.Machine

/-- The command word in execution. "The hardware fetches nothing: the command word is the value of the host's write to
CMD, latched into OPW by the start event" (R39). -/
def State.commandWord (s : State) : Word := s.opw

/-- The completion event (R27, R28): a defined word is executed, any other ends in ILLEGAL_CMD (R47, R98). -/
def runCommand (s : State) : Host.Outcome State Fault Refusal :=
  match decode s.commandWord with
  | .ok i => exec i s
  | .error _ => .next (s.raise .illegalCmd)

/-- The codec completes when its latency has run out; until then, and while idle, the host moves (R37). -/
def nextEvent (s : State) : Host.Outcome State Fault Refusal :=
  match s.busy, s.latency with
  | true, 0 => runCommand s
  | true, _ + 1 => .next s.tick.hostMove
  | false, _ => .next s.hostMove

end Sys2Proof.Machine
end

