-- ==== Sys2Proof/Machine/Step.lean ====
section
/-! DEFINITION. One step of the machine: one event of R37's single total order, or one line of the host's script that
is no event by itself. -/

namespace Sys2Proof.Machine

/-- One step. -/
def step (s : State) : Host.Outcome State Fault Refusal := nextEvent s

/-- `s` right after the start event of the command word of a table row (R26), with no latency left: the next step is
that command's completion event. There is no program to store a word in (R12); the host's write to CMD is the only way
a command word reaches the hardware (log entry 1). -/
def State.withFetchWord (s : State) (nbits w : Nat) : State :=
  { s.latchCommand (BitVec.ofNat 32 (tableValue nbits w)) with latency := 0 }

end Sys2Proof.Machine
end

