-- ==== Sys2Proof/Machine/System.lean ====
section
/-! DEFINITION. Several instances of the block in one system (spec/20_memory.md R40, spec/60_exceptions.md R107):
"instances share no state", so a system is a list of machines and a system's step is a step of one of them (log
entry 13). Each is meant to have a serial number of its own; two that share one share their free values (log entry 14). -/

namespace Sys2Proof.Machine

/-- A step of instance `k`; a number that names no instance changes nothing. -/
def stepInstance (sys : List State) (k : Nat) : Host.Outcome (List State) Fault Refusal :=
  match sys[k]? with
  | none => .next sys
  | some s =>
    match step s with
    | .next t => .next (sys.set k t)
    | .fault r => .fault r
    | .refused r => .refused r

end Sys2Proof.Machine
end

