-- ==== Sys2Proof/Safety.lean ====
section
/-! DEFINITION. The terms statements use: what a completed command leaves (written from the rules' formulas, not from the
meanings' loops), which error a command reports, what a safe run is, and the invariant every step keeps. -/

namespace Sys2Proof.Machine

/-- A run of `k` steps that meets neither a fault nor a refusal and ends in `t`. -/
def SafeRun (k : Nat) (s t : State) : Prop := Host.Core.run core k s = .next t

/-- The five writes of an error completion "and no others" (R102). -/
def ErrorCompleted (e : ErrCode) (s t : State) : Prop :=
  t = { s with outLen := 0#32, outBits := 0#32, err := e, busy := false, done := true }

/-- A block command that completed without error wrote OBUF, OUT_LEN, OUT_BITS and STATUS and nothing else: "RES, SR
unchanged" (R68, R69), and so is every other field. -/
def BlockFrame (s t : State) : Prop :=
  t = { s with obuf := t.obuf, outLen := t.outLen, outBits := t.outBits, err := .none, busy := false, done := true }

/-- CONV also writes SR, ACC and NB; "RES unchanged" (R81), and so is every other field. -/
def ConvFrame (s t : State) : Prop :=
  t =
    { s with
      obuf := t.obuf, outLen := t.outLen, outBits := t.outBits, sr := t.sr, acc := t.acc, nb := t.nb
      err := .none, busy := false, done := true }

/-- What ENCB leaves when it completes without error (R68, R51). -/
def BlockEncoded (s t : State) : Prop :=
  BlockFrame s t ∧ t.outLen.toNat = 2 * s.inLen.toNat ∧ t.outBits.toNat = 16 * s.inLen.toNat ∧
  (∀ i, i < s.inLen.toNat →
    t.obufByte (2 * i) = encNibble ((s.ibufByte i).extractLsb' 4 4) ∧
    t.obufByte (2 * i + 1) = encNibble ((s.ibufByte i).extractLsb' 0 4)) ∧
  ∀ j, 2 * s.inLen.toNat ≤ j → t.obufByte j = s.obufByte j

/-- What DECB leaves when it completes without error (R69). -/
def BlockDecoded (s t : State) : Prop :=
  BlockFrame s t ∧ t.outLen.toNat = s.inLen.toNat / 2 ∧ t.outBits.toNat = 8 * (s.inLen.toNat / 2) ∧
  (∀ i, i < s.inLen.toNat / 2 →
    t.obufByte i = decCodeword (s.ibufByte (2 * i)) ++ decCodeword (s.ibufByte (2 * i + 1))) ∧
  ∀ j, s.inLen.toNat / 2 ≤ j → t.obufByte j = s.obufByte j

/-- Input bit number `t` of a CONV command: "`IBUF[t div 8][7 - (t mod 8)]`" (R31), and 0 in the tail (R79). -/
def convInputBit (s : State) (t : Nat) : Bit :=
  if t < 8 * s.inLen.toNat then bit (s.ibufByte (t / 8)) (7 - t % 8) else 0#1

/-- `b_(t-k)`, with "`b_t = 0` for `t < 0`" (R76). -/
def convPastBit (s : State) (t k : Nat) : Bit := if k ≤ t then convInputBit s (t - k) else 0#1

/-- Output stream bit `u` (R76, R78): step `t` fills stream bit `2t` with `o1_t = b_t ^ b_(t-1) ^ b_(t-2)` and stream bit
`2t + 1` with `o2_t = b_t ^ b_(t-2)`. -/
def convStreamBit (s : State) (u : Nat) : Bit :=
  if u % 2 = 0 then convPastBit s (u / 2) 0 ^^^ convPastBit s (u / 2) 1 ^^^ convPastBit s (u / 2) 2
  else convPastBit s (u / 2) 0 ^^^ convPastBit s (u / 2) 2

/-- What CONV leaves when it completes without error (R81): the lengths of R80; the stream of R52 and R76 packed as R31
says, "any unused trailing bits in the final byte are zero"; SR as R79 says; NB counts the emitted bits. -/
def ConvEncoded (s t : State) : Prop :=
  ConvFrame s t ∧ t.outLen.toNat = 2 * s.inLen.toNat + 1 ∧ t.outBits.toNat = 16 * s.inLen.toNat + 4 ∧
  (∀ u, u < 16 * s.inLen.toNat + 4 → bit (t.obufByte (u / 8)) (7 - u % 8) = convStreamBit s u) ∧
  (t.obufByte (2 * s.inLen.toNat)).extractLsb' 0 4 = 0#4 ∧
  (∀ j, 2 * s.inLen.toNat + 1 ≤ j → t.obufByte j = s.obufByte j) ∧
  t.sr = (if s.inLen.toNat = 0 then 0#1 else bit (s.ibufByte (s.inLen.toNat - 1)) 0) ++ 0#2 ∧
  t.nb.toNat = 16 * s.inLen.toNat + 4 ∧ t.acc = t.obufByte (2 * s.inLen.toNat)

/-- `T(B)` of R83: "the 16-bit output of byte `B` from register 0", the G1 bit of each step before its G2 bit. -/
def convTable (B : Byte) : BitVec 16 :=
  ((List.range 8).foldl
    (fun (x : BitVec 3 × BitVec 16) k =>
      let r := convStep x.1 (bit B (7 - k))
      (r.1, (x.2 <<< 2) ||| (r.2.1 ++ r.2.2).setWidth 16))
    (0#3, 0#16)).2

/-- `M(q)` of R83, what the two bits before a byte add to its output. -/
def convCarry (q : BitVec 2) : BitVec 16 :=
  if q = 0b00#2 then 0x0000#16 else if q = 0b01#2 then 0xB000#16 else if q = 0b10#2 then 0xC000#16 else 0x7000#16

/-- `q` of R83: "let `q = IBUF[i-1][1:0]` for `i > 0` and `q = 0` for `i = 0`". -/
def convBitsBefore (s : State) (i : Nat) : BitVec 2 := if i = 0 then 0#2 else (s.ibufByte (i - 1)).extractLsb' 0 2

/-- A command word that is none of the seven: "`OP = 0`, or any bit of `w[31:3]` set" (R98). -/
def IllegalWord (w : Word) : Prop := w.extractLsb' 0 3 = 0#3 ∨ w.extractLsb' 3 29 ≠ 0#29

/-- The error of a block encode of `L` bytes (R68). -/
def blockEncodeError (s : State) : ErrCode :=
  if s.inLen.toNat > s.params.ibufBytes then .sizeError
  else if 2 * s.inLen.toNat > s.params.obufBytes then .sizeError
  else .none

/-- The error of a block decode of `L` bytes (R69). -/
def blockDecodeError (s : State) : ErrCode :=
  if s.inLen.toNat > s.params.ibufBytes then .sizeError
  else if s.inLen.toNat % 2 = 1 then .invalidLength
  else if s.inLen.toNat / 2 > s.params.obufBytes then .sizeError
  else .none

/-- The error of a convolutional encode of `L` bytes (R81). -/
def convEncodeError (s : State) : ErrCode :=
  if s.inLen.toNat > s.params.ibufBytes then .sizeError
  else if 2 * s.inLen.toNat + 1 > s.params.obufBytes then .sizeError
  else .none

/-- The one error that the latched command reports, "the first that applies" in R101's order; the operation codes are
R46's. -/
def reportedError (s : State) : ErrCode :=
  if s.opw.extractLsb' 3 29 ≠ 0#29 then .illegalCmd
  else if s.opw.extractLsb' 0 3 = 0#3 then .illegalCmd
  else if s.opw.extractLsb' 0 3 = 1#3 then .none
  else if s.opw.extractLsb' 0 3 = 2#3 then .none
  else if s.opw.extractLsb' 0 3 = 3#3 then blockEncodeError s
  else if s.opw.extractLsb' 0 3 = 4#3 then blockDecodeError s
  else if s.opw.extractLsb' 0 3 = 5#3 then convEncodeError s
  else if s.opw.extractLsb' 0 3 = 6#3 then
    match s.scheme with
    | .block => blockEncodeError s
    | .conv => convEncodeError s
  else
    match s.scheme with
    | .block => blockDecodeError s
    | .conv => .unsupported

/-- `y` is `x` with no bit or exactly one bit inverted. -/
def AtMostOneFlip (x y : Byte) : Prop := y = x ∨ ∃ k, k < 8 ∧ y = x ^^^ (1#8 <<< k)

/-- Two starts that R29 calls the same: equal command words, CFG.SCHEME, ARG, IN_LEN, and equal input bytes, on instances
of equal sizes. Nothing is said of the serial number, SR, ACC, NB, RES, OUT_LEN, OUT_BITS, OBUF, the host or earlier commands. -/
def SameInputs (s u : State) : Prop :=
  s.params.ibufBytes = u.params.ibufBytes ∧ s.params.obufBytes = u.params.obufBytes ∧
  s.opw = u.opw ∧ s.scheme = u.scheme ∧ s.arg = u.arg ∧ s.inLen = u.inLen ∧
  ∀ i, i < s.inLen.toNat → i < s.params.ibufBytes → s.ibufByte i = u.ibufByte i

/-- The command's result (R112, R114): the error code; RES for ENCN and DECC; OUT_LEN, OUT_BITS and
`OBUF[0 .. OUT_LEN-1]` for the rest, illegal words included. `w` is the command word. -/
def SameResult (w : Word) (t v : State) : Prop :=
  t.err = v.err ∧
  if w = encode .encn ∨ w = encode .decc then t.res = v.res
  else t.outLen = v.outLen ∧ t.outBits = v.outBits ∧ ∀ j, j < t.outLen.toNat → t.obufByte j = v.obufByte j

/-- The invariant of the machine. -/
structure State.Inv (s : State) : Prop where
  /-- IBUF is in canonical form. -/
  ibufWf : Memory.wf s.ibuf
  /-- OBUF is in canonical form. -/
  obufWf : Memory.wf s.obuf
  /-- No byte outside IBUF is ever written (R23). -/
  ibufInside : Memory.inside s.ibuf s.params.ibufBytes
  /-- "No command ever addresses a byte outside IBUF or OBUF" (R97). -/
  obufInside : Memory.inside s.obuf s.params.obufBytes
  /-- From a start event to the completion event DONE = 0 and ERR = 0 (R13). -/
  busyStatus : s.busy = true → s.done = false ∧ s.err = .none
  /-- An idle machine has no command whose latency could run (model's own). -/
  idleLatency : s.busy = false → s.latency = 0
  /-- "An error is reported in exactly two places: STATUS.ERR holds its code, and OUT_LEN (with OUT_BITS) is 0" (R95). -/
  errorOutput : s.err ≠ .none → s.outLen = 0#32 ∧ s.outBits = 0#32
  /-- "`RES[7]` is always 0" (R66, R67). -/
  resTop : bit s.res 7 = 0#1
  /-- The output byte sequence fits in OBUF (R19, R97). -/
  outLenFits : s.outLen.toNat ≤ s.params.obufBytes
  /-- OUT_BITS is 8 * OUT_LEN, or 4 less after a convolutional encode (R20, R80). -/
  outBitsFit : s.outBits.toNat = 8 * s.outLen.toNat ∨ s.outBits.toNat + 4 = 8 * s.outLen.toNat
  /-- Every byte of the result has been written since reset (R24: the command writes each of them). -/
  resultWritten : ∀ j, j < s.outLen.toNat → Memory.get? s.obuf j ≠ none
  /-- The known terminal state: "the two low bits … are 00" (R79). -/
  srTail : s.sr.extractLsb' 0 2 = 0#2
  /-- NB is 0 or has just counted a whole encode (R22, R80). -/
  nbWhole : s.nb = 0#32 ∨ s.nb.toNat % 16 = 4
  /-- The low bits of the last, partly filled output byte are 0 (R78). -/
  accTail : s.acc.extractLsb' 0 4 = 0#4

end Sys2Proof.Machine
end

