-- ==== Sys2Proof/Certificates/Slice0/Obligations.lean ====
section
/-! DEFINITION. The statements for the provers. Each docstring names the rule of spec/ that its statement formalises. -/

section

open Sys2Proof Sys2Proof.Machine

/-! ### Reset -/

/-- R25, R110: every register, SR, ACC and NB hold 0 (SCHEME = BLOCK, STATUS idle), and every byte of both memories is
the free power-on byte, of which nothing is known (log entries 3, 14). The sizes are those of the instance. -/
def Obligations.ResetLeavesTheTableValues : Prop :=
  ∀ p : Params,
    let s := State.resetWith p
    s.params = p ∧ s.opw = 0#32 ∧ s.scheme = .block ∧ s.busy = false ∧ s.done = false ∧ s.err = .none ∧ s.arg = 0#8 ∧
    s.res = 0#8 ∧ s.inLen = 0#32 ∧ s.outLen = 0#32 ∧ s.outBits = 0#32 ∧ s.sr = 0#3 ∧ s.acc = 0#8 ∧ s.nb = 0#32 ∧
    (∀ i, s.ibufByte i = Config.ibufPowerOn p.serial 0 i) ∧ (∀ j, s.obufByte j = Config.obufPowerOn p.serial 0 j)

/-- R110, R111: `rst`, whenever it lands, puts every field of R25's table at its reset value, a running command
included: no completion event happens for it, DONE = 0, and both memories hold bytes unspecified anew (log entries 3,
14). What the host has still to do, and what it has read, is not the block's and stays (the model's own fields, log
entry 6). -/
def Obligations.AssertedResetAbandonsEverything : Prop :=
  ∀ (s : State) (rest : List HostLine), s.script = .rst :: rest → s.busy = false ∨ 0 < s.latency →
    ∃ t, step s = .next t ∧
      t.params = s.params ∧ t.opw = 0#32 ∧ t.scheme = .block ∧ t.busy = false ∧ t.done = false ∧ t.err = .none ∧
      t.arg = 0#8 ∧ t.res = 0#8 ∧ t.inLen = 0#32 ∧ t.outLen = 0#32 ∧ t.outBits = 0#32 ∧ t.sr = 0#3 ∧ t.acc = 0#8 ∧
      t.nb = 0#32 ∧ (∀ i, t.ibufByte i = Config.ibufPowerOn s.params.serial (s.resets + 1) i) ∧
      (∀ j, t.obufByte j = Config.obufPowerOn s.params.serial (s.resets + 1) j) ∧ t.script = rest ∧ t.returned = s.returned

/-! ### Encoding -/

/-- R46: words written out from the table decode to the commands they stand for, and some illegal words of
spec/95_test_vectors.md section 2.7 to none. The decoder's names for why a word is illegal, and which comes first, are the
model's choice (log entry 9). -/
def Obligations.SampleWordsDecode : Prop :=
  decode 0b00000000000000000000000000000001#32 = .ok .encn ∧ decode 0b00000000000000000000000000000010#32 = .ok .decc ∧
  decode 0b00000000000000000000000000000100#32 = .ok .decb ∧ decode 0b00000000000000000000000000000101#32 = .ok .conv ∧
  decode 0b00000000000000000000000000000110#32 = .ok .penc ∧ decode 0x00000000#32 = .error .operationZero ∧
  decode 0x00000009#32 = .error .reservedBitsSet ∧ decode 0x80000005#32 = .error .reservedBitsSet

/-- R46: a word decodes to a command exactly when it is that command's word, so no bit of the word is dropped and no word
has two meanings. -/
def Obligations.DecodeAgreesWithEncode : Prop := ∀ (w : Word) (i : Instr), decode w = .ok i ↔ w = encode i

/-- R47, R98: "A command word with `OP = 0`, or with any bit of `w[31:3]` set, is illegal": the decoder refuses exactly
those words, and the command that such a word starts ends in ILLEGAL_CMD with the five writes of R102 and no others. -/
def Obligations.IllegalWordsEndInIllegalCmd : Prop :=
  (∀ w : Word, (∃ e, decode w = .error e) ↔ IllegalWord w) ∧
  ∀ s : State, s.busy = true → s.latency = 0 → IllegalWord s.opw →
    ∃ t, step s = .next t ∧ ErrorCompleted .illegalCmd s t

/-! ### The step -/

/-- R27, R39: when a command is in execution and its latency has run out, a step is the execution of the command that
OPW decodes to. -/
def Obligations.StepRunsTheLatchedCommand : Prop :=
  ∀ (s : State) (i : Instr), s.busy = true → s.latency = 0 → decode s.opw = .ok i → step s = exec i s

/-- R37: while the host has the turn (idle, or a command with latency left), a step is the host's next line, performed on
the state without that line; while BUSY it also uses up one unit of the latency (log entry 5). With nothing to do the
block keeps its state (R106). -/
def Obligations.StepPerformsTheHostsNextLine : Prop :=
  ∀ s : State,
    (∀ l rest, s.busy = false → s.script = l :: rest → step s = .next (({ s with script := rest } : State).perform l)) ∧
    (∀ l rest n, s.busy = true → s.latency = n + 1 → s.script = l :: rest →
      step s = .next (({ s with latency := n, script := rest } : State).perform l)) ∧
    (s.busy = false → s.script = [] → step s = .next s) ∧
    (∀ n, s.busy = true → s.latency = n + 1 → s.script = [] → step s = .next { s with latency := n })

/-- R95: "No condition in this core is fatal": no state makes a step a fault or a refusal. -/
def Obligations.NoStepStops : Prop := ∀ s : State, ∃ t, step s = .next t

/-- R26: the start event. A write of `w` to CMD while idle latches `w`, sets BUSY and clears DONE and ERR; "nothing else
changes" but the model's own schedule (log entry 5). -/
def Obligations.CommandWriteStartsTheCommand : Prop :=
  ∀ (s : State) (w : Word) (rest : List HostLine), s.busy = false → s.script = .access (.regWrite 0 w) :: rest →
    step s = .next
      { s with
        opw := w, busy := true, done := false, err := .none, script := rest
        latency := s.latencies.headD 0, latencies := s.latencies.tail }

/-- R28: a started command completes, whatever the host does meanwhile short of `rst`: after as many host moves as its
latency says and one step more, BUSY = 0 and DONE = 1. The number is the model's (log entry 5); that it is finite is the
rule's. -/
def Obligations.StartedCommandCompletes : Prop :=
  ∀ s : State, s.busy = true → HostLine.rst ∉ s.script →
    ∃ t, SafeRun (s.latency + 1) s t ∧ t.busy = false ∧ t.done = true

/-! ### The pure functions of the block codec -/

/-- R72: the sixteen codewords. -/
def Obligations.CodewordsAreTheTable : Prop :=
  (List.range 16).map (fun n => encNibble (BitVec.ofNat 4 n)) =
    [0x00#8, 0x07#8, 0x19#8, 0x1E#8, 0x2A#8, 0x2D#8, 0x33#8, 0x34#8,
     0x4B#8, 0x4C#8, 0x52#8, 0x55#8, 0x61#8, 0x66#8, 0x78#8, 0x7F#8]

/-- R62, R63: the syndrome of a codeword is 0, a flip of position `p` changes the syndrome by `p`, `c[7]` does not enter,
and a corrected word always has syndrome 0. -/
def Obligations.SyndromeNamesTheFlippedPosition : Prop :=
  (∀ n : Nibble, syndrome (encNibble n) = 0#3) ∧
  (∀ (c : Byte) (p : BitVec 3), p ≠ 0#3 → syndrome (c ^^^ (1#8 <<< (p.toNat - 1))) = syndrome c ^^^ p) ∧
  (∀ c : Byte, syndrome (c &&& 0x7F#8) = syndrome c) ∧
  ∀ c : Byte, syndrome ((correct c).setWidth 8) = 0#3

/-- R65: (a) no error decodes to the nibble, (b) one flipped bit does too, bit 7 included, (c) two or more flips in
`c[6:0]` always decode to another nibble, (d) two codewords differ in at least 3 bits, and some two in
exactly 3. -/
def Obligations.BlockCodeCorrectsOneErrorOnly : Prop :=
  (∀ n : Nibble, decCodeword (encNibble n) = n) ∧
  (∀ n : Nibble, ∀ k, k < 8 → decCodeword (encNibble n ^^^ (1#8 <<< k)) = n) ∧
  (∀ n : Nibble, ∀ e : BitVec 7, e ≠ 0#7 → (∀ k, k < 7 → e ≠ 1#7 <<< k) →
    decCodeword (encNibble n ^^^ e.setWidth 8) ≠ n) ∧
  (∀ n m : Nibble, n ≠ m → 3 ≤ ((List.range 8).filter fun k => bit (encNibble n) k ≠ bit (encNibble m) k).length) ∧
  ∃ n m : Nibble, ((List.range 8).filter fun k => bit (encNibble n) k ≠ bit (encNibble m) k).length = 3

/-- R70: `enc_nibble` and `syndrome` are linear over XOR. -/
def Obligations.BlockCodeIsLinear : Prop :=
  (∀ a b : Nibble, encNibble (a ^^^ b) = encNibble a ^^^ encNibble b) ∧
  ∀ a b : Byte, syndrome (a ^^^ b) = syndrome a ^^^ syndrome b

/-! ### The single-codeword commands -/

/-- R66: the word 0x00000001 is ENCN; it completes in every state, writes the codeword of `ARG[3:0]` to RES and
completes with ERR = 0; nothing else changes, whatever `ARG[7:4]` holds. -/
def Obligations.EncnWritesTheCodeword : Prop :=
  decode 0x00000001#32 = .ok .encn ∧
  ∀ s : State, exec .encn s =
    .next { s with res := encNibble (s.arg.extractLsb' 0 4), err := .none, busy := false, done := true }

/-- R67: the word 0x00000002 is DECC; it completes in every state, writes the decoded nibble to RES with `RES[7:4] = 0`
and completes with ERR = 0 whatever the syndrome; nothing else changes; `ARG[7]` has no effect. -/
def Obligations.DeccWritesTheNibble : Prop :=
  decode 0x00000002#32 = .ok .decc ∧
  (∀ s : State, exec .decc s =
    .next { s with res := (decCodeword s.arg).setWidth 8, err := .none, busy := false, done := true }) ∧
  ∀ c : Byte, decCodeword (c &&& 0x7F#8) = decCodeword c

/-! ### The buffer commands -/

/-- R68: the word 0x00000003 is ENCB; it completes with the result of a block encode, and nothing else changed, when the
input fits in IBUF and the output in OBUF; otherwise with SIZE_ERROR. -/
def Obligations.EncbEncodesTheBuffer : Prop :=
  decode 0x00000003#32 = .ok .encb ∧
  ∀ s : State,
    (s.inLen.toNat ≤ s.params.ibufBytes → 2 * s.inLen.toNat ≤ s.params.obufBytes →
      ∃ t, exec .encb s = .next t ∧ BlockEncoded s t) ∧
    (s.inLen.toNat > s.params.ibufBytes ∨ 2 * s.inLen.toNat > s.params.obufBytes →
      ∃ t, exec .encb s = .next t ∧ ErrorCompleted .sizeError s t)

/-- R69: the word 0x00000004 is DECB; it completes with the result of a block decode, and nothing else changed, when the
length is even and fits; an odd length that fits in IBUF ends in INVALID_LENGTH, any other in SIZE_ERROR. -/
def Obligations.DecbDecodesTheBuffer : Prop :=
  decode 0x00000004#32 = .ok .decb ∧
  ∀ s : State,
    (s.inLen.toNat ≤ s.params.ibufBytes → s.inLen.toNat % 2 = 0 → s.inLen.toNat / 2 ≤ s.params.obufBytes →
      ∃ t, exec .decb s = .next t ∧ BlockDecoded s t) ∧
    (s.inLen.toNat ≤ s.params.ibufBytes → s.inLen.toNat % 2 = 1 →
      ∃ t, exec .decb s = .next t ∧ ErrorCompleted .invalidLength s t) ∧
    (s.inLen.toNat > s.params.ibufBytes → ∃ t, exec .decb s = .next t ∧ ErrorCompleted .sizeError s t) ∧
    (s.inLen.toNat ≤ s.params.ibufBytes → s.inLen.toNat % 2 = 0 → s.inLen.toNat / 2 > s.params.obufBytes →
      ∃ t, exec .decb s = .next t ∧ ErrorCompleted .sizeError s t)

/-- R81, with R31, R52, R76, R78 to R80: the shift register and the packer together produce exactly the stream of the
tap equations, most significant bit first, with the tail and the zero padding; CONV, the word 0x00000005, completes with
it, and nothing else changed, when the lengths fit; otherwise with SIZE_ERROR. -/
def Obligations.ConvEncodesTheBuffer : Prop :=
  decode 0x00000005#32 = .ok .conv ∧
  ∀ s : State,
    (s.inLen.toNat ≤ s.params.ibufBytes → 2 * s.inLen.toNat + 1 ≤ s.params.obufBytes →
      ∃ t, exec .conv s = .next t ∧ ConvEncoded s t) ∧
    (s.inLen.toNat > s.params.ibufBytes ∨ 2 * s.inLen.toNat + 1 > s.params.obufBytes →
      ∃ t, exec .conv s = .next t ∧ ErrorCompleted .sizeError s t)

/-- R86: PENC, the word 0x00000006, is ENCB under SCHEME = BLOCK and CONV under SCHEME = CONV, in every effect, and so
completes with that command's result when the lengths fit. -/
def Obligations.PencRunsTheSelectedScheme : Prop :=
  decode 0x00000006#32 = .ok .penc ∧
  ∀ s : State,
    (s.scheme = .block → exec .penc s = exec .encb s ∧
      (s.inLen.toNat ≤ s.params.ibufBytes → 2 * s.inLen.toNat ≤ s.params.obufBytes →
        ∃ t, exec .penc s = .next t ∧ BlockEncoded s t)) ∧
    (s.scheme = .conv → exec .penc s = exec .conv s ∧
      (s.inLen.toNat ≤ s.params.ibufBytes → 2 * s.inLen.toNat + 1 ≤ s.params.obufBytes →
        ∃ t, exec .penc s = .next t ∧ ConvEncoded s t))

/-- R87: PDEC, the word 0x00000007, is DECB under SCHEME = BLOCK, in every effect, and so completes with its result when
the length is even and fits; under SCHEME = CONV it ends in UNSUPPORTED whatever IN_LEN holds. -/
def Obligations.PdecRunsTheBlockSchemeOnly : Prop :=
  decode 0x00000007#32 = .ok .pdec ∧
  ∀ s : State,
    (s.scheme = .block → exec .pdec s = exec .decb s ∧
      (s.inLen.toNat ≤ s.params.ibufBytes → s.inLen.toNat % 2 = 0 → s.inLen.toNat / 2 ≤ s.params.obufBytes →
        ∃ t, exec .pdec s = .next t ∧ BlockDecoded s t)) ∧
    (s.scheme = .conv → ∃ t, exec .pdec s = .next t ∧ ErrorCompleted .unsupported s t)

/-- R75, R84: the eight rows of the state-transition table, for either value of the lost bit `sr[2]`. -/
def Obligations.ConvStepFollowsTheTable : Prop :=
  ∀ x : Bit,
    convStep (x ++ 0b00#2) 0#1 = (0b000#3, 0#1, 0#1) ∧ convStep (x ++ 0b00#2) 1#1 = (0b001#3, 1#1, 1#1) ∧
    convStep (x ++ 0b01#2) 0#1 = (0b010#3, 1#1, 0#1) ∧ convStep (x ++ 0b01#2) 1#1 = (0b011#3, 0#1, 1#1) ∧
    convStep (x ++ 0b10#2) 0#1 = (0b100#3, 1#1, 1#1) ∧ convStep (x ++ 0b10#2) 1#1 = (0b101#3, 0#1, 0#1) ∧
    convStep (x ++ 0b11#2) 0#1 = (0b110#3, 0#1, 1#1) ∧ convStep (x ++ 0b11#2) 1#1 = (0b111#3, 1#1, 0#1)

/-- R82: "the output for `X ^ Y` (bytewise, equal lengths) is the XOR of the outputs for `X` and `Y`". -/
def Obligations.ConvIsLinear : Prop :=
  ∀ x y z tx ty tz : State, x.inLen = z.inLen → y.inLen = z.inLen →
    (∀ i, i < z.inLen.toNat → z.ibufByte i = x.ibufByte i ^^^ y.ibufByte i) →
    exec .conv x = .next tx → exec .conv y = .next ty → exec .conv z = .next tz →
    tx.err = .none → ty.err = .none → tz.err = .none →
    ∀ j, j < tz.outLen.toNat → tz.obufByte j = tx.obufByte j ^^^ ty.obufByte j

/-- R83: "`{OBUF[2i], OBUF[2i+1]} = T(IBUF[i]) ^ M(q)`" and "the final byte is `OBUF[2L] = M(IBUF[L-1][1:0])[15:8]`",
0x00 when `L = 0`. -/
def Obligations.ConvHasAClosedFormPerByte : Prop :=
  ∀ s t : State, exec .conv s = .next t → t.err = .none →
    (∀ i, i < s.inLen.toNat →
      t.obufByte (2 * i) ++ t.obufByte (2 * i + 1) = convTable (s.ibufByte i) ^^^ convCarry (convBitsBefore s i)) ∧
    t.obufByte (2 * s.inLen.toNat) = (convCarry (convBitsBefore s s.inLen.toNat)).extractLsb' 8 8

/-- R65 on whole buffers (spec/95_test_vectors.md section 2.4, round trip): decode what an encode left, with at most one
flipped bit in each byte, and the payload comes back with its length and without an error. The two commands may run on
different instances. -/
def Obligations.BlockRoundTripSurvivesSingleErrors : Prop :=
  ∀ s t u v : State, exec .encb s = .next t → t.err = .none → u.inLen = t.outLen →
    u.inLen.toNat ≤ u.params.ibufBytes → s.inLen.toNat ≤ u.params.obufBytes →
    (∀ j, j < t.outLen.toNat → AtMostOneFlip (t.obufByte j) (u.ibufByte j)) → exec .decb u = .next v →
    v.err = .none ∧ v.outLen = s.inLen ∧ ∀ i, i < s.inLen.toNat → v.obufByte i = s.ibufByte i

/-- R116: input bytes that the host never wrote are no error: from reset, with any IN_LEN that fits, ENCB completes with
the encoding of the free power-on bytes. The free values (log entries 3, 14) are used as they are; nothing is said of what
they are. -/
def Obligations.UnwrittenInputIsEncodedAsItStands : Prop :=
  ∀ (p : Params) (n : Word), n.toNat ≤ p.ibufBytes → 2 * n.toNat ≤ p.obufBytes →
    ∃ t, exec .encb ({ State.resetWith p with inLen := n } : State) = .next t ∧ t.err = .none ∧
      t.outLen.toNat = 2 * n.toNat ∧
      ∀ i, i < n.toNat →
        t.obufByte (2 * i) = encNibble ((Config.ibufPowerOn p.serial 0 i).extractLsb' 4 4) ∧
        t.obufByte (2 * i + 1) = encNibble ((Config.ibufPowerOn p.serial 0 i).extractLsb' 0 4)

/-! ### Errors -/

/-- R101, R102, with the causes of R96 to R99: a command reports exactly the first error that applies, and none if none
applies; one that reports an error makes the five writes of an error completion and no others. -/
def Obligations.CommandReportsTheFirstError : Prop :=
  ∀ s : State, s.busy = true → s.latency = 0 →
    ∃ t, step s = .next t ∧ t.err = reportedError s ∧ (t.err ≠ .none → ErrorCompleted t.err s t)

/-! ### What no command touches, and who writes what -/

/-- R16, R18, R23, R15, R26: no command, however it ends, writes ARG, CFG, IN_LEN, IBUF or OPW, the sizes, or anything
outside the block; and every completion leaves BUSY = 0 and DONE = 1 (R28). -/
def Obligations.CommandsLeaveTheirOperandsAlone : Prop :=
  ∀ (i : Instr) (s t : State), exec i s = .next t →
    t.params = s.params ∧ t.opw = s.opw ∧ t.scheme = s.scheme ∧ t.arg = s.arg ∧ t.inLen = s.inLen ∧ t.ibuf = s.ibuf ∧
    t.latency = s.latency ∧ t.latencies = s.latencies ∧ t.script = s.script ∧ t.returned = s.returned ∧
    t.draws = s.draws ∧ t.resets = s.resets ∧ t.busy = false ∧ t.done = true

/-- R17, R19 to R22, R24: RES is written only by ENCN and DECC; SR, ACC and NB only by CONV or by PENC under SCHEME =
CONV; OBUF, OUT_LEN and OUT_BITS never by ENCN or DECC. -/
def Obligations.EachResultRegisterHasItsWriters : Prop :=
  ∀ (i : Instr) (s t : State), exec i s = .next t →
    (i ≠ .encn → i ≠ .decc → t.res = s.res) ∧
    (i ≠ .conv → ¬(i = .penc ∧ s.scheme = .conv) → t.sr = s.sr ∧ t.acc = s.acc ∧ t.nb = s.nb) ∧
    (i = .encn ∨ i = .decc → t.obuf = s.obuf ∧ t.outLen = s.outLen ∧ t.outBits = s.outBits)

/-- R24, R34, R114: every byte of OBUF at an index `>= OUT_LEN` keeps its value, in every command and however it ends (an
error completion has OUT_LEN = 0 and so changes no byte); ENCN and DECC change none. -/
def Obligations.OutputBytesBeyondTheResultAreKept : Prop :=
  ∀ (i : Instr) (s t : State), exec i s = .next t →
    ∀ j, (t.outLen.toNat ≤ j ∨ i = .encn ∨ i = .decc) → t.obufByte j = s.obufByte j

/-- R90, R15: a step changes CFG.SCHEME only by a host write to CFG that lands while idle, or by `rst`. -/
def Obligations.SchemeChangesOnlyWhileIdle : Prop :=
  ∀ s t : State, step s = .next t → t.scheme ≠ s.scheme →
    (∃ rest, s.script = .rst :: rest) ∨
    s.busy = false ∧ ∃ v rest, s.script = .access (.regWrite 1 v) :: rest

/-- R23: a step changes a byte of IBUF only by a host write of that byte, inside IBUF and while idle, or by `rst`. -/
def Obligations.InputBytesChangeOnlyByHostWrites : Prop :=
  ∀ (s t : State) (i : Nat), step s = .next t → t.ibufByte i ≠ s.ibufByte i →
    (∃ rest, s.script = .rst :: rest) ∨
    s.busy = false ∧ i < s.params.ibufBytes ∧ ∃ rest, s.script = .access (.ibufWrite i (t.ibufByte i)) :: rest

/-! ### The host's side -/

/-- R13, R14 to R20, R36: what each register number reads as while idle: CMD 0, CFG its one bit, STATUS its three fields
at their places, ARG and RES zero-extended, the lengths whole, and 0 for every number above 7. No read has another
effect than to give the host its value (R35). -/
def Obligations.IdleRegisterReads : Prop :=
  ∀ s : State, s.busy = false →
    s.access (.regRead 0) = s.giveBack (.word 0#32) ∧
    s.access (.regRead 1) = s.giveBack (.word (if s.scheme = .conv then 1#32 else 0#32)) ∧
    s.access (.regRead 2) =
      s.giveBack (.word ((if s.done then 2#32 else 0#32) ||| (s.err.code.setWidth 32 <<< 4))) ∧
    s.access (.regRead 3) = s.giveBack (.word (s.arg.setWidth 32)) ∧
    s.access (.regRead 4) = s.giveBack (.word (s.res.setWidth 32)) ∧
    s.access (.regRead 5) = s.giveBack (.word s.inLen) ∧ s.access (.regRead 6) = s.giveBack (.word s.outLen) ∧
    s.access (.regRead 7) = s.giveBack (.word s.outBits) ∧
    ∀ n, 8 ≤ n → s.access (.regRead n) = s.giveBack (.word 0#32)

/-- R15, R16, R18, R36: host register writes while idle: CFG takes bit 0, ARG bits [7:0], IN_LEN all 32; STATUS, RES,
OUT_LEN, OUT_BITS and every number above 7 ignore the write. -/
def Obligations.IdleRegisterWrites : Prop :=
  ∀ (s : State) (v : Word), s.busy = false →
    s.access (.regWrite 1 v) = { s with scheme := if v.getLsbD 0 then .conv else .block } ∧
    s.access (.regWrite 3 v) = { s with arg := v.extractLsb' 0 8 } ∧
    s.access (.regWrite 5 v) = { s with inLen := v } ∧
    s.access (.regWrite 2 v) = s ∧ s.access (.regWrite 4 v) = s ∧ s.access (.regWrite 6 v) = s ∧
    s.access (.regWrite 7 v) = s ∧ ∀ n, 8 ≤ n → s.access (.regWrite n v) = s

/-- R23, R24: host buffer accesses while idle: an IBUF write inside the buffer is what the next read of that index sees
and leaves every other index alone; a write outside it, and any write to OBUF, is ignored; a read gives the byte, and 0
outside the buffer. -/
def Obligations.IdleBufferAccesses : Prop :=
  ∀ (s : State) (i : Nat) (b : Byte), s.busy = false →
    (i < s.params.ibufBytes →
      let t := s.access (.ibufWrite i b)
      t = { s with ibuf := t.ibuf } ∧ t.ibufByte i = b ∧ ∀ j, j ≠ i → t.ibufByte j = s.ibufByte j) ∧
    (s.params.ibufBytes ≤ i → s.access (.ibufWrite i b) = s) ∧ s.access (.obufWrite i b) = s ∧
    s.access (.ibufRead i) = s.giveBack (.byte (if i < s.params.ibufBytes then s.ibufByte i else 0#8)) ∧
    s.access (.obufRead i) = s.giveBack (.byte (if i < s.params.obufBytes then s.obufByte i else 0#8))

/-- R115, R27: while BUSY no host access changes anything but what the host has read and the model's count of free
values; a read of STATUS gives BUSY = 1, DONE = 0, ERR = 0; a read of any other register, or of any IBUF or OBUF byte,
gives the instance's next free value (log entry 14; CMD's read too: the model's choice of R115 over R14, log entry 4). The
premises of the STATUS clause are the invariant's (R13: DONE and ERR are 0 from a start event to the completion event). -/
def Obligations.BusyLocksTheHostOut : Prop :=
  ∀ (s : State) (a : Access), s.busy = true →
    s.access a = { s with returned := (s.access a).returned, draws := (s.access a).draws } ∧
    (s.done = false → s.err = .none → s.access (.regRead 2) = s.giveBack (.word 1#32)) ∧
    (∀ n, n < 8 → n ≠ 2 → s.access (.regRead n) = (s.giveBack (.word (Config.busyWord s.params.serial s.draws))).drawn) ∧
    (∀ k, k < s.params.ibufBytes → s.access (.ibufRead k) = (s.giveBack (.byte (Config.busyByte s.params.serial s.draws))).drawn) ∧
    ∀ k, k < s.params.obufBytes → s.access (.obufRead k) = (s.giveBack (.byte (Config.busyByte s.params.serial s.draws))).drawn

/-- R55: "`WAIT` always terminates": from every state whose next line is `WAIT` a run gets past it, to the lines after it,
with the machine idle; it rests on the model's schedule (log entry 5). -/
def Obligations.WaitEndsWithAnIdleMachine : Prop :=
  ∀ (s : State) (rest : List HostLine), s.script = .wait :: rest →
    ∃ k t, SafeRun k s t ∧ t.script = rest ∧ t.busy = false

/-- R54: the transaction triple of a script line determines the line. -/
def Obligations.TransactionsDetermineTheirLines : Prop :=
  ∀ (a : Access) (x : Transaction), a.transaction = some x → x.access = some a

/-- R55: the expansions of the pseudo-operations, with `r` what the host has read so far; the inner lines are the model's
form (log entry 8). -/
def Obligations.PseudoOperationsExpand : Prop :=
  ∀ (r : List Returned) (op : Instr) (v m : Word) (b : Byte) (bs : List Byte) (i k : Nat),
    HostLine.expand r .wait = [.access (.regRead 2), .pollAgain] ∧
    HostLine.expand (.word v :: r) .pollAgain =
      (if v.getLsbD 0 then [.access (.regRead 2), .pollAgain] else []) ∧
    HostLine.expand r (.run op) = [.access (.regWrite 0 (encode op)), .wait] ∧
    HostLine.expand r (.load bs) =
      (bs.zipIdx.map fun x => .access (.ibufWrite x.2 x.1)) ++ [.access (.regWrite 5 (BitVec.ofNat 32 bs.length))] ∧
    HostLine.expand r (.encn v) = [.access (.regWrite 3 v), .run .encn, .access (.regRead 4)] ∧
    HostLine.expand r (.decc v) = [.access (.regWrite 3 v), .run .decc, .access (.regRead 4)] ∧
    HostLine.expand r (.flip i k) = [.access (.ibufRead i), .flipBack i k] ∧
    HostLine.expand (.byte b :: r) (.flipBack i k) = [.access (.ibufWrite i (b ^^^ (1#8 <<< k)))] ∧
    HostLine.expand r .loopback = [.access (.regRead 6), .copyOut] ∧
    HostLine.expand (.word m :: r) .copyOut =
      ((List.range m.toNat).flatMap fun j => [.access (.obufRead j), .storeBack j]) ++ [.access (.regWrite 5 m)] ∧
    HostLine.expand (.byte b :: r) (.storeBack i) = [.access (.ibufWrite i b)]

/-! ### Whole-machine statements -/

/-- R29: "No command's result depends on any earlier command": two machines whose starts agree on OPW, CFG.SCHEME, ARG,
IN_LEN and the input bytes give the same result, whatever else they hold. -/
def Obligations.ResultsDependOnTheInputsOnly : Prop :=
  ∀ s u t v : State, SameInputs s u → s.busy = true → u.busy = true → s.latency = 0 → u.latency = 0 →
    step s = .next t → step u = .next v → SameResult s.opw t v

/-- The invariant holds right after reset, for every size of the buffers. -/
def Obligations.InvariantHoldsAtReset : Prop := ∀ p : Params, (State.resetWith p).Inv

/-- Every step keeps the invariant, from every state that has it. -/
def Obligations.EveryStepKeepsTheInvariant : Prop := ∀ s t : State, s.Inv → step s = .next t → t.Inv

/-- R40: a step of one instance leaves every other instance as it was, and is that instance's own step; a system
as a list of machines is the model's form (log entry 13). -/
def Obligations.InstancesAreIndependent : Prop :=
  ∀ (sys sys' : List State) (k : Nat), stepInstance sys k = .next sys' →
    (∀ j, j ≠ k → sys'[j]? = sys[j]?) ∧ ∀ s, sys[k]? = some s → ∃ t, step s = .next t ∧ sys'[k]? = some t

end
end

