-- ==== Sys2Proof/Laws/Bits.lean ====
section
/-! SUPPORT. The bit operations, read one bit at a time. -/

namespace Sys2Proof.Machine

/-- `v[i]` as the library reads it. -/
theorem bit_eq {w : Nat} (v : BitVec w) (i : Nat) : bit v i = BitVec.ofBool (v.getLsbD i) := by
  unfold bit
  ext k hk
  have : k = 0 := by omega
  subst this
  simp

/-- XOR works bit by bit (R70). -/
theorem bit_xor {w : Nat} (a b : BitVec w) (i : Nat) : bit (a ^^^ b) i = bit a i ^^^ bit b i := by
  rw [bit_eq, bit_eq, bit_eq, BitVec.getLsbD_xor, BitVec.ofBool_xor_ofBool]

/-- A byte is known from its eight bits. -/
theorem byte_ext {a b : Byte} (h : ∀ k, k < 8 → bit a k = bit b k) : a = b := by
  refine BitVec.eq_of_getLsbD_eq fun k hk => ?_
  have := h k hk
  rw [bit_eq, bit_eq] at this
  have h2 := congrArg (fun x : BitVec 1 => x.getLsbD 0) this
  simpa using h2

/-- What a one-bit update does to every bit of the byte (R78). -/
theorem bit_withBit (v : Byte) {k : Nat} (hk : k < 8) (b : Bit) (i : Nat) :
    bit (withBit v k b) i = if i = k then b else bit v i := by
  unfold withBit
  by_cases h8 : i < 8
  · by_cases h : i = k
    · subst h
      have hb : b = BitVec.ofBool (b.getLsbD 0) := by
        ext j hj
        have : j = 0 := by omega
        subst this
        simp
      rw [bit_eq, if_pos rfl]
      conv => rhs; rw [hb]
      simp [h8]
    · have h1 : ¬(i < k ∧ False) := by simp
      rw [if_neg h, bit_eq, bit_eq]
      congr 1
      by_cases h2 : i < k
      · simp [h8, h2]
      · have h3 : i - k ≠ 0 := by omega
        have h4 : 1 ≤ i - k := by omega
        simp [h8, h2, h3, h4, BitVec.getLsbD_of_ge]
  · have h : i ≠ k := by omega
    rw [if_neg h, bit_eq, bit_eq]
    simp [BitVec.getLsbD_of_ge, Nat.le_of_not_lt h8]

@[simp] theorem bit_zero (w i : Nat) : bit (0#w) i = 0#1 := by simp [bit_eq]

/-- The low nibble of a byte is 0 when its four bits are. -/
theorem lowNibble_eq_zero {a : Byte} (h : ∀ k, k < 4 → bit a k = 0#1) : a.extractLsb' 0 4 = 0#4 := by
  refine BitVec.eq_of_getLsbD_eq fun k hk => ?_
  have := h k hk
  rw [bit_eq] at this
  have h2 := congrArg (fun x : BitVec 1 => x.getLsbD 0) this
  simpa [hk] using h2

/-- The bits of a zero low nibble. -/
theorem bit_of_lowNibble {a : Byte} (h : a.extractLsb' 0 4 = 0#4) {k : Nat} (hk : k < 4) : bit a k = 0#1 := by
  have h1 : bit a k = bit (a.extractLsb' 0 4) k := by
    rw [bit_eq, bit_eq]
    simp [hk]
  rw [h1, h, bit_zero]

end Sys2Proof.Machine
end

