-- ==== Sys2Proof/Laws/Lengths.lean ====
section
/-! SUPPORT. Length arithmetic never wraps (spec/40_block_codec.md R71). -/

namespace Sys2Proof

/-- The parameter bound of R5. -/
theorem Params.ibufBytes_le (p : Params) : p.ibufBytes ≤ 2 ^ 24 := by
  have := p.ibufTop.isLt
  unfold Params.ibufBytes
  omega

/-- The parameter bound of R5. -/
theorem Params.obufBytes_le (p : Params) : p.obufBytes ≤ 2 ^ 24 := by
  have := p.obufTop.isLt
  unfold Params.obufBytes
  omega

/-- R71: a length below 2^32 is stored without wrapping. -/
theorem toNat_ofNat_32 {n : Nat} (h : n < 2 ^ 32) : (BitVec.ofNat 32 n).toNat = n := by
  simp only [BitVec.toNat_ofNat]
  exact Nat.mod_eq_of_lt h

end Sys2Proof
end

