-- ==== Sys2Proof/Laws/Memory.lean ====
section
/-! SUPPORT. The laws of the buffer memories: read after write, and the canonical form under a write. -/

namespace Sys2Proof.Machine

@[simp] theorem Memory.get?_nil (i : Nat) : Memory.get? [] i = none := rfl

/-- Everything a write does to a later read. -/
theorem Memory.get?_set (m : Memory) (i j : Nat) (v : Byte) :
    Memory.get? (Memory.set m i v) j = if j = i then some v else Memory.get? m j := by
  induction m with
  | nil => simp [Memory.set, Memory.get?, eq_comm]
  | cons c m ih =>
    obtain ⟨a, b⟩ := c
    unfold Memory.set
    split
    · by_cases h : j = i
      · simp [Memory.get?, h]
      · simp [Memory.get?, h, Ne.symm h]
    · split
      · subst_vars
        by_cases h : a = j
        · simp [Memory.get?, h]
        · simp [Memory.get?, h, Ne.symm h]
      · by_cases h : a = j
        · have : j ≠ i := by omega
          simp [Memory.get?, h, this]
        · simp [Memory.get?, h, ih]

@[simp] theorem Memory.get?_set_same (m : Memory) (i : Nat) (v : Byte) :
    Memory.get? (Memory.set m i v) i = some v := by simp [Memory.get?_set]

theorem Memory.get?_set_other (m : Memory) {i j : Nat} (v : Byte) (h : j ≠ i) :
    Memory.get? (Memory.set m i v) j = Memory.get? m j := by simp [Memory.get?_set, h]

/-- Every cell of a written memory is the new one or an old one. -/
theorem Memory.mem_set {m : Memory} {i : Nat} {v : Byte} {c : Host.Cell} (h : c ∈ Memory.set m i v) :
    c = (i, v) ∨ c ∈ m := by
  induction m with
  | nil => simpa [Memory.set] using h
  | cons d m ih =>
    obtain ⟨a, b⟩ := d
    unfold Memory.set at h
    split at h
    · simpa using h
    · split at h
      · simp only [List.mem_cons] at h ⊢
        tauto
      · simp only [List.mem_cons] at h ⊢
        rcases h with h | h
        · exact .inr (.inl h)
        · rcases ih h with h | h
          · exact .inl h
          · exact .inr (.inr h)

/-- A write keeps the canonical form. -/
theorem Memory.wf_set {m : Memory} (h : Memory.wf m) (i : Nat) (v : Byte) : Memory.wf (Memory.set m i v) := by
  induction m with
  | nil => simp [Memory.set, Memory.wf]
  | cons d m ih =>
    obtain ⟨a, b⟩ := d
    obtain ⟨ha, hm⟩ := List.pairwise_cons.mp h
    unfold Memory.set
    split
    · rename_i hi
      refine List.pairwise_cons.mpr ⟨fun c hc => ?_, h⟩
      rcases List.mem_cons.mp hc with rfl | hc
      · exact hi
      · exact Nat.lt_trans hi (ha c hc)
    · split
      · subst_vars
        exact List.pairwise_cons.mpr ⟨ha, hm⟩
      · refine List.pairwise_cons.mpr ⟨fun c hc => ?_, ih hm⟩
        rcases Memory.mem_set hc with rfl | hc
        · simp only
          omega
        · exact ha c hc

/-- A write inside the memory stays inside it. -/
theorem Memory.inside_set {m : Memory} {n : Nat} (h : Memory.inside m n) {i : Nat} (hi : i < n) (v : Byte) :
    Memory.inside (Memory.set m i v) n := by
  intro c hc
  rcases Memory.mem_set hc with rfl | hc
  · exact hi
  · exact h c hc

/-- The two memory operations of the machine keep the canonical form. -/
theorem writeIbuf_wf {s : State} (h : Memory.wf s.ibuf) (i : Nat) (b : Byte) : Memory.wf (s.writeIbuf i b).ibuf :=
  Memory.wf_set h i b

theorem writeObuf_wf {s : State} (h : Memory.wf s.obuf) (j : Nat) (b : Byte) : Memory.wf (s.writeObuf j b).obuf :=
  Memory.wf_set h j b

/-- Reset lists no byte, so both memories are in canonical form (R25). -/
theorem resetWith_wf (p : Params) :
    Memory.wf (State.resetWith p).ibuf ∧ Memory.wf (State.resetWith p).obuf := ⟨.nil, .nil⟩

theorem reset_wf : Memory.wf State.reset.ibuf ∧ Memory.wf State.reset.obuf := resetWith_wf _

/-- A codec write as the host later reads it. -/
theorem obufByte_writeObuf (s : State) (i j : Nat) (b : Byte) :
    (s.writeObuf i b).obufByte j = if j = i then b else s.obufByte j := by
  unfold State.obufByte State.writeObuf
  by_cases h : j = i <;> simp [Memory.get?_set, h]

/-- A host write as the codec later reads it. -/
theorem ibufByte_writeIbuf (s : State) (i j : Nat) (b : Byte) :
    (s.writeIbuf i b).ibufByte j = if j = i then b else s.ibufByte j := by
  unfold State.ibufByte State.writeIbuf
  by_cases h : j = i <;> simp [Memory.get?_set, h]

end Sys2Proof.Machine
end

