-- ==== Sys2Proof/Laws/State.lean ====
section
/-! SUPPORT. One lemma per field per update of State: what each field is after each of the named updates. -/

namespace Sys2Proof.Machine

variable (s : State)

@[simp] theorem State.writeIbuf_params (i : Nat) (b : Byte) : (s.writeIbuf i b).params = s.params := rfl
@[simp] theorem State.writeIbuf_opw (i : Nat) (b : Byte) : (s.writeIbuf i b).opw = s.opw := rfl
@[simp] theorem State.writeIbuf_scheme (i : Nat) (b : Byte) : (s.writeIbuf i b).scheme = s.scheme := rfl
@[simp] theorem State.writeIbuf_busy (i : Nat) (b : Byte) : (s.writeIbuf i b).busy = s.busy := rfl
@[simp] theorem State.writeIbuf_done (i : Nat) (b : Byte) : (s.writeIbuf i b).done = s.done := rfl
@[simp] theorem State.writeIbuf_err (i : Nat) (b : Byte) : (s.writeIbuf i b).err = s.err := rfl
@[simp] theorem State.writeIbuf_arg (i : Nat) (b : Byte) : (s.writeIbuf i b).arg = s.arg := rfl
@[simp] theorem State.writeIbuf_res (i : Nat) (b : Byte) : (s.writeIbuf i b).res = s.res := rfl
@[simp] theorem State.writeIbuf_inLen (i : Nat) (b : Byte) : (s.writeIbuf i b).inLen = s.inLen := rfl
@[simp] theorem State.writeIbuf_outLen (i : Nat) (b : Byte) : (s.writeIbuf i b).outLen = s.outLen := rfl
@[simp] theorem State.writeIbuf_outBits (i : Nat) (b : Byte) : (s.writeIbuf i b).outBits = s.outBits := rfl
@[simp] theorem State.writeIbuf_sr (i : Nat) (b : Byte) : (s.writeIbuf i b).sr = s.sr := rfl
@[simp] theorem State.writeIbuf_acc (i : Nat) (b : Byte) : (s.writeIbuf i b).acc = s.acc := rfl
@[simp] theorem State.writeIbuf_nb (i : Nat) (b : Byte) : (s.writeIbuf i b).nb = s.nb := rfl
@[simp] theorem State.writeIbuf_ibuf (i : Nat) (b : Byte) : (s.writeIbuf i b).ibuf = Memory.set s.ibuf i b := rfl
@[simp] theorem State.writeIbuf_obuf (i : Nat) (b : Byte) : (s.writeIbuf i b).obuf = s.obuf := rfl
@[simp] theorem State.writeIbuf_latency (i : Nat) (b : Byte) : (s.writeIbuf i b).latency = s.latency := rfl
@[simp] theorem State.writeIbuf_latencies (i : Nat) (b : Byte) : (s.writeIbuf i b).latencies = s.latencies := rfl
@[simp] theorem State.writeIbuf_script (i : Nat) (b : Byte) : (s.writeIbuf i b).script = s.script := rfl
@[simp] theorem State.writeIbuf_returned (i : Nat) (b : Byte) : (s.writeIbuf i b).returned = s.returned := rfl
@[simp] theorem State.writeIbuf_draws (i : Nat) (b : Byte) : (s.writeIbuf i b).draws = s.draws := rfl
@[simp] theorem State.writeIbuf_resets (i : Nat) (b : Byte) : (s.writeIbuf i b).resets = s.resets := rfl

@[simp] theorem State.writeObuf_params (j : Nat) (b : Byte) : (s.writeObuf j b).params = s.params := rfl
@[simp] theorem State.writeObuf_opw (j : Nat) (b : Byte) : (s.writeObuf j b).opw = s.opw := rfl
@[simp] theorem State.writeObuf_scheme (j : Nat) (b : Byte) : (s.writeObuf j b).scheme = s.scheme := rfl
@[simp] theorem State.writeObuf_busy (j : Nat) (b : Byte) : (s.writeObuf j b).busy = s.busy := rfl
@[simp] theorem State.writeObuf_done (j : Nat) (b : Byte) : (s.writeObuf j b).done = s.done := rfl
@[simp] theorem State.writeObuf_err (j : Nat) (b : Byte) : (s.writeObuf j b).err = s.err := rfl
@[simp] theorem State.writeObuf_arg (j : Nat) (b : Byte) : (s.writeObuf j b).arg = s.arg := rfl
@[simp] theorem State.writeObuf_res (j : Nat) (b : Byte) : (s.writeObuf j b).res = s.res := rfl
@[simp] theorem State.writeObuf_inLen (j : Nat) (b : Byte) : (s.writeObuf j b).inLen = s.inLen := rfl
@[simp] theorem State.writeObuf_outLen (j : Nat) (b : Byte) : (s.writeObuf j b).outLen = s.outLen := rfl
@[simp] theorem State.writeObuf_outBits (j : Nat) (b : Byte) : (s.writeObuf j b).outBits = s.outBits := rfl
@[simp] theorem State.writeObuf_sr (j : Nat) (b : Byte) : (s.writeObuf j b).sr = s.sr := rfl
@[simp] theorem State.writeObuf_acc (j : Nat) (b : Byte) : (s.writeObuf j b).acc = s.acc := rfl
@[simp] theorem State.writeObuf_nb (j : Nat) (b : Byte) : (s.writeObuf j b).nb = s.nb := rfl
@[simp] theorem State.writeObuf_ibuf (j : Nat) (b : Byte) : (s.writeObuf j b).ibuf = s.ibuf := rfl
@[simp] theorem State.writeObuf_obuf (j : Nat) (b : Byte) : (s.writeObuf j b).obuf = Memory.set s.obuf j b := rfl
@[simp] theorem State.writeObuf_latency (j : Nat) (b : Byte) : (s.writeObuf j b).latency = s.latency := rfl
@[simp] theorem State.writeObuf_latencies (j : Nat) (b : Byte) : (s.writeObuf j b).latencies = s.latencies := rfl
@[simp] theorem State.writeObuf_script (j : Nat) (b : Byte) : (s.writeObuf j b).script = s.script := rfl
@[simp] theorem State.writeObuf_returned (j : Nat) (b : Byte) : (s.writeObuf j b).returned = s.returned := rfl
@[simp] theorem State.writeObuf_draws (j : Nat) (b : Byte) : (s.writeObuf j b).draws = s.draws := rfl
@[simp] theorem State.writeObuf_resets (j : Nat) (b : Byte) : (s.writeObuf j b).resets = s.resets := rfl

@[simp] theorem State.setRes_params (b : Byte) : (s.setRes b).params = s.params := rfl
@[simp] theorem State.setRes_opw (b : Byte) : (s.setRes b).opw = s.opw := rfl
@[simp] theorem State.setRes_scheme (b : Byte) : (s.setRes b).scheme = s.scheme := rfl
@[simp] theorem State.setRes_busy (b : Byte) : (s.setRes b).busy = s.busy := rfl
@[simp] theorem State.setRes_done (b : Byte) : (s.setRes b).done = s.done := rfl
@[simp] theorem State.setRes_err (b : Byte) : (s.setRes b).err = s.err := rfl
@[simp] theorem State.setRes_arg (b : Byte) : (s.setRes b).arg = s.arg := rfl
@[simp] theorem State.setRes_res (b : Byte) : (s.setRes b).res = b := rfl
@[simp] theorem State.setRes_inLen (b : Byte) : (s.setRes b).inLen = s.inLen := rfl
@[simp] theorem State.setRes_outLen (b : Byte) : (s.setRes b).outLen = s.outLen := rfl
@[simp] theorem State.setRes_outBits (b : Byte) : (s.setRes b).outBits = s.outBits := rfl
@[simp] theorem State.setRes_sr (b : Byte) : (s.setRes b).sr = s.sr := rfl
@[simp] theorem State.setRes_acc (b : Byte) : (s.setRes b).acc = s.acc := rfl
@[simp] theorem State.setRes_nb (b : Byte) : (s.setRes b).nb = s.nb := rfl
@[simp] theorem State.setRes_ibuf (b : Byte) : (s.setRes b).ibuf = s.ibuf := rfl
@[simp] theorem State.setRes_obuf (b : Byte) : (s.setRes b).obuf = s.obuf := rfl
@[simp] theorem State.setRes_latency (b : Byte) : (s.setRes b).latency = s.latency := rfl
@[simp] theorem State.setRes_latencies (b : Byte) : (s.setRes b).latencies = s.latencies := rfl
@[simp] theorem State.setRes_script (b : Byte) : (s.setRes b).script = s.script := rfl
@[simp] theorem State.setRes_returned (b : Byte) : (s.setRes b).returned = s.returned := rfl
@[simp] theorem State.setRes_draws (b : Byte) : (s.setRes b).draws = s.draws := rfl
@[simp] theorem State.setRes_resets (b : Byte) : (s.setRes b).resets = s.resets := rfl

@[simp] theorem State.setOutput_params (bytes bits : Nat) : (s.setOutput bytes bits).params = s.params := rfl
@[simp] theorem State.setOutput_opw (bytes bits : Nat) : (s.setOutput bytes bits).opw = s.opw := rfl
@[simp] theorem State.setOutput_scheme (bytes bits : Nat) : (s.setOutput bytes bits).scheme = s.scheme := rfl
@[simp] theorem State.setOutput_busy (bytes bits : Nat) : (s.setOutput bytes bits).busy = s.busy := rfl
@[simp] theorem State.setOutput_done (bytes bits : Nat) : (s.setOutput bytes bits).done = s.done := rfl
@[simp] theorem State.setOutput_err (bytes bits : Nat) : (s.setOutput bytes bits).err = s.err := rfl
@[simp] theorem State.setOutput_arg (bytes bits : Nat) : (s.setOutput bytes bits).arg = s.arg := rfl
@[simp] theorem State.setOutput_res (bytes bits : Nat) : (s.setOutput bytes bits).res = s.res := rfl
@[simp] theorem State.setOutput_inLen (bytes bits : Nat) : (s.setOutput bytes bits).inLen = s.inLen := rfl
@[simp] theorem State.setOutput_outLen (bytes bits : Nat) : (s.setOutput bytes bits).outLen = BitVec.ofNat 32 bytes := rfl
@[simp] theorem State.setOutput_outBits (bytes bits : Nat) : (s.setOutput bytes bits).outBits = BitVec.ofNat 32 bits := rfl
@[simp] theorem State.setOutput_sr (bytes bits : Nat) : (s.setOutput bytes bits).sr = s.sr := rfl
@[simp] theorem State.setOutput_acc (bytes bits : Nat) : (s.setOutput bytes bits).acc = s.acc := rfl
@[simp] theorem State.setOutput_nb (bytes bits : Nat) : (s.setOutput bytes bits).nb = s.nb := rfl
@[simp] theorem State.setOutput_ibuf (bytes bits : Nat) : (s.setOutput bytes bits).ibuf = s.ibuf := rfl
@[simp] theorem State.setOutput_obuf (bytes bits : Nat) : (s.setOutput bytes bits).obuf = s.obuf := rfl
@[simp] theorem State.setOutput_latency (bytes bits : Nat) : (s.setOutput bytes bits).latency = s.latency := rfl
@[simp] theorem State.setOutput_latencies (bytes bits : Nat) : (s.setOutput bytes bits).latencies = s.latencies := rfl
@[simp] theorem State.setOutput_script (bytes bits : Nat) : (s.setOutput bytes bits).script = s.script := rfl
@[simp] theorem State.setOutput_returned (bytes bits : Nat) : (s.setOutput bytes bits).returned = s.returned := rfl
@[simp] theorem State.setOutput_draws (bytes bits : Nat) : (s.setOutput bytes bits).draws = s.draws := rfl
@[simp] theorem State.setOutput_resets (bytes bits : Nat) : (s.setOutput bytes bits).resets = s.resets := rfl

@[simp] theorem State.latchCommand_params (w : Word) : (s.latchCommand w).params = s.params := rfl
@[simp] theorem State.latchCommand_opw (w : Word) : (s.latchCommand w).opw = w := rfl
@[simp] theorem State.latchCommand_scheme (w : Word) : (s.latchCommand w).scheme = s.scheme := rfl
@[simp] theorem State.latchCommand_busy (w : Word) : (s.latchCommand w).busy = true := rfl
@[simp] theorem State.latchCommand_done (w : Word) : (s.latchCommand w).done = false := rfl
@[simp] theorem State.latchCommand_err (w : Word) : (s.latchCommand w).err = .none := rfl
@[simp] theorem State.latchCommand_arg (w : Word) : (s.latchCommand w).arg = s.arg := rfl
@[simp] theorem State.latchCommand_res (w : Word) : (s.latchCommand w).res = s.res := rfl
@[simp] theorem State.latchCommand_inLen (w : Word) : (s.latchCommand w).inLen = s.inLen := rfl
@[simp] theorem State.latchCommand_outLen (w : Word) : (s.latchCommand w).outLen = s.outLen := rfl
@[simp] theorem State.latchCommand_outBits (w : Word) : (s.latchCommand w).outBits = s.outBits := rfl
@[simp] theorem State.latchCommand_sr (w : Word) : (s.latchCommand w).sr = s.sr := rfl
@[simp] theorem State.latchCommand_acc (w : Word) : (s.latchCommand w).acc = s.acc := rfl
@[simp] theorem State.latchCommand_nb (w : Word) : (s.latchCommand w).nb = s.nb := rfl
@[simp] theorem State.latchCommand_ibuf (w : Word) : (s.latchCommand w).ibuf = s.ibuf := rfl
@[simp] theorem State.latchCommand_obuf (w : Word) : (s.latchCommand w).obuf = s.obuf := rfl
@[simp] theorem State.latchCommand_latency (w : Word) : (s.latchCommand w).latency = s.latency := rfl
@[simp] theorem State.latchCommand_latencies (w : Word) : (s.latchCommand w).latencies = s.latencies := rfl
@[simp] theorem State.latchCommand_script (w : Word) : (s.latchCommand w).script = s.script := rfl
@[simp] theorem State.latchCommand_returned (w : Word) : (s.latchCommand w).returned = s.returned := rfl
@[simp] theorem State.latchCommand_draws (w : Word) : (s.latchCommand w).draws = s.draws := rfl
@[simp] theorem State.latchCommand_resets (w : Word) : (s.latchCommand w).resets = s.resets := rfl

@[simp] theorem State.start_params (w : Word) : (s.start w).params = s.params := rfl
@[simp] theorem State.start_opw (w : Word) : (s.start w).opw = w := rfl
@[simp] theorem State.start_scheme (w : Word) : (s.start w).scheme = s.scheme := rfl
@[simp] theorem State.start_busy (w : Word) : (s.start w).busy = true := rfl
@[simp] theorem State.start_done (w : Word) : (s.start w).done = false := rfl
@[simp] theorem State.start_err (w : Word) : (s.start w).err = .none := rfl
@[simp] theorem State.start_arg (w : Word) : (s.start w).arg = s.arg := rfl
@[simp] theorem State.start_res (w : Word) : (s.start w).res = s.res := rfl
@[simp] theorem State.start_inLen (w : Word) : (s.start w).inLen = s.inLen := rfl
@[simp] theorem State.start_outLen (w : Word) : (s.start w).outLen = s.outLen := rfl
@[simp] theorem State.start_outBits (w : Word) : (s.start w).outBits = s.outBits := rfl
@[simp] theorem State.start_sr (w : Word) : (s.start w).sr = s.sr := rfl
@[simp] theorem State.start_acc (w : Word) : (s.start w).acc = s.acc := rfl
@[simp] theorem State.start_nb (w : Word) : (s.start w).nb = s.nb := rfl
@[simp] theorem State.start_ibuf (w : Word) : (s.start w).ibuf = s.ibuf := rfl
@[simp] theorem State.start_obuf (w : Word) : (s.start w).obuf = s.obuf := rfl
@[simp] theorem State.start_latency (w : Word) : (s.start w).latency = s.latencies.headD 0 := rfl
@[simp] theorem State.start_latencies (w : Word) : (s.start w).latencies = s.latencies.tail := rfl
@[simp] theorem State.start_script (w : Word) : (s.start w).script = s.script := rfl
@[simp] theorem State.start_returned (w : Word) : (s.start w).returned = s.returned := rfl
@[simp] theorem State.start_draws (w : Word) : (s.start w).draws = s.draws := rfl
@[simp] theorem State.start_resets (w : Word) : (s.start w).resets = s.resets := rfl

@[simp] theorem State.complete_params (e : ErrCode) : (s.complete e).params = s.params := rfl
@[simp] theorem State.complete_opw (e : ErrCode) : (s.complete e).opw = s.opw := rfl
@[simp] theorem State.complete_scheme (e : ErrCode) : (s.complete e).scheme = s.scheme := rfl
@[simp] theorem State.complete_busy (e : ErrCode) : (s.complete e).busy = false := rfl
@[simp] theorem State.complete_done (e : ErrCode) : (s.complete e).done = true := rfl
@[simp] theorem State.complete_err (e : ErrCode) : (s.complete e).err = e := rfl
@[simp] theorem State.complete_arg (e : ErrCode) : (s.complete e).arg = s.arg := rfl
@[simp] theorem State.complete_res (e : ErrCode) : (s.complete e).res = s.res := rfl
@[simp] theorem State.complete_inLen (e : ErrCode) : (s.complete e).inLen = s.inLen := rfl
@[simp] theorem State.complete_outLen (e : ErrCode) : (s.complete e).outLen = s.outLen := rfl
@[simp] theorem State.complete_outBits (e : ErrCode) : (s.complete e).outBits = s.outBits := rfl
@[simp] theorem State.complete_sr (e : ErrCode) : (s.complete e).sr = s.sr := rfl
@[simp] theorem State.complete_acc (e : ErrCode) : (s.complete e).acc = s.acc := rfl
@[simp] theorem State.complete_nb (e : ErrCode) : (s.complete e).nb = s.nb := rfl
@[simp] theorem State.complete_ibuf (e : ErrCode) : (s.complete e).ibuf = s.ibuf := rfl
@[simp] theorem State.complete_obuf (e : ErrCode) : (s.complete e).obuf = s.obuf := rfl
@[simp] theorem State.complete_latency (e : ErrCode) : (s.complete e).latency = s.latency := rfl
@[simp] theorem State.complete_latencies (e : ErrCode) : (s.complete e).latencies = s.latencies := rfl
@[simp] theorem State.complete_script (e : ErrCode) : (s.complete e).script = s.script := rfl
@[simp] theorem State.complete_returned (e : ErrCode) : (s.complete e).returned = s.returned := rfl
@[simp] theorem State.complete_draws (e : ErrCode) : (s.complete e).draws = s.draws := rfl
@[simp] theorem State.complete_resets (e : ErrCode) : (s.complete e).resets = s.resets := rfl

@[simp] theorem State.raise_params (e : ErrCode) : (s.raise e).params = s.params := rfl
@[simp] theorem State.raise_opw (e : ErrCode) : (s.raise e).opw = s.opw := rfl
@[simp] theorem State.raise_scheme (e : ErrCode) : (s.raise e).scheme = s.scheme := rfl
@[simp] theorem State.raise_busy (e : ErrCode) : (s.raise e).busy = false := rfl
@[simp] theorem State.raise_done (e : ErrCode) : (s.raise e).done = true := rfl
@[simp] theorem State.raise_err (e : ErrCode) : (s.raise e).err = e := rfl
@[simp] theorem State.raise_arg (e : ErrCode) : (s.raise e).arg = s.arg := rfl
@[simp] theorem State.raise_res (e : ErrCode) : (s.raise e).res = s.res := rfl
@[simp] theorem State.raise_inLen (e : ErrCode) : (s.raise e).inLen = s.inLen := rfl
@[simp] theorem State.raise_outLen (e : ErrCode) : (s.raise e).outLen = 0#32 := rfl
@[simp] theorem State.raise_outBits (e : ErrCode) : (s.raise e).outBits = 0#32 := rfl
@[simp] theorem State.raise_sr (e : ErrCode) : (s.raise e).sr = s.sr := rfl
@[simp] theorem State.raise_acc (e : ErrCode) : (s.raise e).acc = s.acc := rfl
@[simp] theorem State.raise_nb (e : ErrCode) : (s.raise e).nb = s.nb := rfl
@[simp] theorem State.raise_ibuf (e : ErrCode) : (s.raise e).ibuf = s.ibuf := rfl
@[simp] theorem State.raise_obuf (e : ErrCode) : (s.raise e).obuf = s.obuf := rfl
@[simp] theorem State.raise_latency (e : ErrCode) : (s.raise e).latency = s.latency := rfl
@[simp] theorem State.raise_latencies (e : ErrCode) : (s.raise e).latencies = s.latencies := rfl
@[simp] theorem State.raise_script (e : ErrCode) : (s.raise e).script = s.script := rfl
@[simp] theorem State.raise_returned (e : ErrCode) : (s.raise e).returned = s.returned := rfl
@[simp] theorem State.raise_draws (e : ErrCode) : (s.raise e).draws = s.draws := rfl
@[simp] theorem State.raise_resets (e : ErrCode) : (s.raise e).resets = s.resets := rfl

@[simp] theorem State.giveBack_params (r : Returned) : (s.giveBack r).params = s.params := rfl
@[simp] theorem State.giveBack_opw (r : Returned) : (s.giveBack r).opw = s.opw := rfl
@[simp] theorem State.giveBack_scheme (r : Returned) : (s.giveBack r).scheme = s.scheme := rfl
@[simp] theorem State.giveBack_busy (r : Returned) : (s.giveBack r).busy = s.busy := rfl
@[simp] theorem State.giveBack_done (r : Returned) : (s.giveBack r).done = s.done := rfl
@[simp] theorem State.giveBack_err (r : Returned) : (s.giveBack r).err = s.err := rfl
@[simp] theorem State.giveBack_arg (r : Returned) : (s.giveBack r).arg = s.arg := rfl
@[simp] theorem State.giveBack_res (r : Returned) : (s.giveBack r).res = s.res := rfl
@[simp] theorem State.giveBack_inLen (r : Returned) : (s.giveBack r).inLen = s.inLen := rfl
@[simp] theorem State.giveBack_outLen (r : Returned) : (s.giveBack r).outLen = s.outLen := rfl
@[simp] theorem State.giveBack_outBits (r : Returned) : (s.giveBack r).outBits = s.outBits := rfl
@[simp] theorem State.giveBack_sr (r : Returned) : (s.giveBack r).sr = s.sr := rfl
@[simp] theorem State.giveBack_acc (r : Returned) : (s.giveBack r).acc = s.acc := rfl
@[simp] theorem State.giveBack_nb (r : Returned) : (s.giveBack r).nb = s.nb := rfl
@[simp] theorem State.giveBack_ibuf (r : Returned) : (s.giveBack r).ibuf = s.ibuf := rfl
@[simp] theorem State.giveBack_obuf (r : Returned) : (s.giveBack r).obuf = s.obuf := rfl
@[simp] theorem State.giveBack_latency (r : Returned) : (s.giveBack r).latency = s.latency := rfl
@[simp] theorem State.giveBack_latencies (r : Returned) : (s.giveBack r).latencies = s.latencies := rfl
@[simp] theorem State.giveBack_script (r : Returned) : (s.giveBack r).script = s.script := rfl
@[simp] theorem State.giveBack_returned (r : Returned) : (s.giveBack r).returned = r :: s.returned := rfl
@[simp] theorem State.giveBack_draws (r : Returned) : (s.giveBack r).draws = s.draws := rfl
@[simp] theorem State.giveBack_resets (r : Returned) : (s.giveBack r).resets = s.resets := rfl

@[simp] theorem State.drawn_params : (s.drawn).params = s.params := rfl
@[simp] theorem State.drawn_opw : (s.drawn).opw = s.opw := rfl
@[simp] theorem State.drawn_scheme : (s.drawn).scheme = s.scheme := rfl
@[simp] theorem State.drawn_busy : (s.drawn).busy = s.busy := rfl
@[simp] theorem State.drawn_done : (s.drawn).done = s.done := rfl
@[simp] theorem State.drawn_err : (s.drawn).err = s.err := rfl
@[simp] theorem State.drawn_arg : (s.drawn).arg = s.arg := rfl
@[simp] theorem State.drawn_res : (s.drawn).res = s.res := rfl
@[simp] theorem State.drawn_inLen : (s.drawn).inLen = s.inLen := rfl
@[simp] theorem State.drawn_outLen : (s.drawn).outLen = s.outLen := rfl
@[simp] theorem State.drawn_outBits : (s.drawn).outBits = s.outBits := rfl
@[simp] theorem State.drawn_sr : (s.drawn).sr = s.sr := rfl
@[simp] theorem State.drawn_acc : (s.drawn).acc = s.acc := rfl
@[simp] theorem State.drawn_nb : (s.drawn).nb = s.nb := rfl
@[simp] theorem State.drawn_ibuf : (s.drawn).ibuf = s.ibuf := rfl
@[simp] theorem State.drawn_obuf : (s.drawn).obuf = s.obuf := rfl
@[simp] theorem State.drawn_latency : (s.drawn).latency = s.latency := rfl
@[simp] theorem State.drawn_latencies : (s.drawn).latencies = s.latencies := rfl
@[simp] theorem State.drawn_script : (s.drawn).script = s.script := rfl
@[simp] theorem State.drawn_returned : (s.drawn).returned = s.returned := rfl
@[simp] theorem State.drawn_draws : (s.drawn).draws = s.draws + 1 := rfl
@[simp] theorem State.drawn_resets : (s.drawn).resets = s.resets := rfl

@[simp] theorem State.tick_params : (s.tick).params = s.params := rfl
@[simp] theorem State.tick_opw : (s.tick).opw = s.opw := rfl
@[simp] theorem State.tick_scheme : (s.tick).scheme = s.scheme := rfl
@[simp] theorem State.tick_busy : (s.tick).busy = s.busy := rfl
@[simp] theorem State.tick_done : (s.tick).done = s.done := rfl
@[simp] theorem State.tick_err : (s.tick).err = s.err := rfl
@[simp] theorem State.tick_arg : (s.tick).arg = s.arg := rfl
@[simp] theorem State.tick_res : (s.tick).res = s.res := rfl
@[simp] theorem State.tick_inLen : (s.tick).inLen = s.inLen := rfl
@[simp] theorem State.tick_outLen : (s.tick).outLen = s.outLen := rfl
@[simp] theorem State.tick_outBits : (s.tick).outBits = s.outBits := rfl
@[simp] theorem State.tick_sr : (s.tick).sr = s.sr := rfl
@[simp] theorem State.tick_acc : (s.tick).acc = s.acc := rfl
@[simp] theorem State.tick_nb : (s.tick).nb = s.nb := rfl
@[simp] theorem State.tick_ibuf : (s.tick).ibuf = s.ibuf := rfl
@[simp] theorem State.tick_obuf : (s.tick).obuf = s.obuf := rfl
@[simp] theorem State.tick_latency : (s.tick).latency = s.latency - 1 := rfl
@[simp] theorem State.tick_latencies : (s.tick).latencies = s.latencies := rfl
@[simp] theorem State.tick_script : (s.tick).script = s.script := rfl
@[simp] theorem State.tick_returned : (s.tick).returned = s.returned := rfl
@[simp] theorem State.tick_draws : (s.tick).draws = s.draws := rfl
@[simp] theorem State.tick_resets : (s.tick).resets = s.resets := rfl

@[simp] theorem State.assertReset_params : (s.assertReset).params = s.params := rfl
@[simp] theorem State.assertReset_opw : (s.assertReset).opw = 0#32 := rfl
@[simp] theorem State.assertReset_scheme : (s.assertReset).scheme = .block := rfl
@[simp] theorem State.assertReset_busy : (s.assertReset).busy = false := rfl
@[simp] theorem State.assertReset_done : (s.assertReset).done = false := rfl
@[simp] theorem State.assertReset_err : (s.assertReset).err = .none := rfl
@[simp] theorem State.assertReset_arg : (s.assertReset).arg = 0#8 := rfl
@[simp] theorem State.assertReset_res : (s.assertReset).res = 0#8 := rfl
@[simp] theorem State.assertReset_inLen : (s.assertReset).inLen = 0#32 := rfl
@[simp] theorem State.assertReset_outLen : (s.assertReset).outLen = 0#32 := rfl
@[simp] theorem State.assertReset_outBits : (s.assertReset).outBits = 0#32 := rfl
@[simp] theorem State.assertReset_sr : (s.assertReset).sr = 0#3 := rfl
@[simp] theorem State.assertReset_acc : (s.assertReset).acc = 0#8 := rfl
@[simp] theorem State.assertReset_nb : (s.assertReset).nb = 0#32 := rfl
@[simp] theorem State.assertReset_ibuf : (s.assertReset).ibuf = [] := rfl
@[simp] theorem State.assertReset_obuf : (s.assertReset).obuf = [] := rfl
@[simp] theorem State.assertReset_latency : (s.assertReset).latency = 0 := rfl
@[simp] theorem State.assertReset_latencies : (s.assertReset).latencies = s.latencies := rfl
@[simp] theorem State.assertReset_script : (s.assertReset).script = s.script := rfl
@[simp] theorem State.assertReset_returned : (s.assertReset).returned = s.returned := rfl
@[simp] theorem State.assertReset_draws : (s.assertReset).draws = s.draws := rfl
@[simp] theorem State.assertReset_resets : (s.assertReset).resets = s.resets + 1 := rfl

@[simp] theorem State.clearEncoder_params : (s.clearEncoder).params = s.params := rfl
@[simp] theorem State.clearEncoder_opw : (s.clearEncoder).opw = s.opw := rfl
@[simp] theorem State.clearEncoder_scheme : (s.clearEncoder).scheme = s.scheme := rfl
@[simp] theorem State.clearEncoder_busy : (s.clearEncoder).busy = s.busy := rfl
@[simp] theorem State.clearEncoder_done : (s.clearEncoder).done = s.done := rfl
@[simp] theorem State.clearEncoder_err : (s.clearEncoder).err = s.err := rfl
@[simp] theorem State.clearEncoder_arg : (s.clearEncoder).arg = s.arg := rfl
@[simp] theorem State.clearEncoder_res : (s.clearEncoder).res = s.res := rfl
@[simp] theorem State.clearEncoder_inLen : (s.clearEncoder).inLen = s.inLen := rfl
@[simp] theorem State.clearEncoder_outLen : (s.clearEncoder).outLen = s.outLen := rfl
@[simp] theorem State.clearEncoder_outBits : (s.clearEncoder).outBits = s.outBits := rfl
@[simp] theorem State.clearEncoder_sr : (s.clearEncoder).sr = 0#3 := rfl
@[simp] theorem State.clearEncoder_acc : (s.clearEncoder).acc = 0#8 := rfl
@[simp] theorem State.clearEncoder_nb : (s.clearEncoder).nb = 0#32 := rfl
@[simp] theorem State.clearEncoder_ibuf : (s.clearEncoder).ibuf = s.ibuf := rfl
@[simp] theorem State.clearEncoder_obuf : (s.clearEncoder).obuf = s.obuf := rfl
@[simp] theorem State.clearEncoder_latency : (s.clearEncoder).latency = s.latency := rfl
@[simp] theorem State.clearEncoder_latencies : (s.clearEncoder).latencies = s.latencies := rfl
@[simp] theorem State.clearEncoder_script : (s.clearEncoder).script = s.script := rfl
@[simp] theorem State.clearEncoder_returned : (s.clearEncoder).returned = s.returned := rfl
@[simp] theorem State.clearEncoder_draws : (s.clearEncoder).draws = s.draws := rfl
@[simp] theorem State.clearEncoder_resets : (s.clearEncoder).resets = s.resets := rfl

@[simp] theorem State.setSr_params (v : BitVec 3) : (s.setSr v).params = s.params := rfl
@[simp] theorem State.setSr_opw (v : BitVec 3) : (s.setSr v).opw = s.opw := rfl
@[simp] theorem State.setSr_scheme (v : BitVec 3) : (s.setSr v).scheme = s.scheme := rfl
@[simp] theorem State.setSr_busy (v : BitVec 3) : (s.setSr v).busy = s.busy := rfl
@[simp] theorem State.setSr_done (v : BitVec 3) : (s.setSr v).done = s.done := rfl
@[simp] theorem State.setSr_err (v : BitVec 3) : (s.setSr v).err = s.err := rfl
@[simp] theorem State.setSr_arg (v : BitVec 3) : (s.setSr v).arg = s.arg := rfl
@[simp] theorem State.setSr_res (v : BitVec 3) : (s.setSr v).res = s.res := rfl
@[simp] theorem State.setSr_inLen (v : BitVec 3) : (s.setSr v).inLen = s.inLen := rfl
@[simp] theorem State.setSr_outLen (v : BitVec 3) : (s.setSr v).outLen = s.outLen := rfl
@[simp] theorem State.setSr_outBits (v : BitVec 3) : (s.setSr v).outBits = s.outBits := rfl
@[simp] theorem State.setSr_sr (v : BitVec 3) : (s.setSr v).sr = v := rfl
@[simp] theorem State.setSr_acc (v : BitVec 3) : (s.setSr v).acc = s.acc := rfl
@[simp] theorem State.setSr_nb (v : BitVec 3) : (s.setSr v).nb = s.nb := rfl
@[simp] theorem State.setSr_ibuf (v : BitVec 3) : (s.setSr v).ibuf = s.ibuf := rfl
@[simp] theorem State.setSr_obuf (v : BitVec 3) : (s.setSr v).obuf = s.obuf := rfl
@[simp] theorem State.setSr_latency (v : BitVec 3) : (s.setSr v).latency = s.latency := rfl
@[simp] theorem State.setSr_latencies (v : BitVec 3) : (s.setSr v).latencies = s.latencies := rfl
@[simp] theorem State.setSr_script (v : BitVec 3) : (s.setSr v).script = s.script := rfl
@[simp] theorem State.setSr_returned (v : BitVec 3) : (s.setSr v).returned = s.returned := rfl
@[simp] theorem State.setSr_draws (v : BitVec 3) : (s.setSr v).draws = s.draws := rfl
@[simp] theorem State.setSr_resets (v : BitVec 3) : (s.setSr v).resets = s.resets := rfl

@[simp] theorem State.pushBit_params (o : Bit) : (s.pushBit o).params = s.params := rfl
@[simp] theorem State.pushBit_opw (o : Bit) : (s.pushBit o).opw = s.opw := rfl
@[simp] theorem State.pushBit_scheme (o : Bit) : (s.pushBit o).scheme = s.scheme := rfl
@[simp] theorem State.pushBit_busy (o : Bit) : (s.pushBit o).busy = s.busy := rfl
@[simp] theorem State.pushBit_done (o : Bit) : (s.pushBit o).done = s.done := rfl
@[simp] theorem State.pushBit_err (o : Bit) : (s.pushBit o).err = s.err := rfl
@[simp] theorem State.pushBit_arg (o : Bit) : (s.pushBit o).arg = s.arg := rfl
@[simp] theorem State.pushBit_res (o : Bit) : (s.pushBit o).res = s.res := rfl
@[simp] theorem State.pushBit_inLen (o : Bit) : (s.pushBit o).inLen = s.inLen := rfl
@[simp] theorem State.pushBit_outLen (o : Bit) : (s.pushBit o).outLen = s.outLen := rfl
@[simp] theorem State.pushBit_outBits (o : Bit) : (s.pushBit o).outBits = s.outBits := rfl
@[simp] theorem State.pushBit_sr (o : Bit) : (s.pushBit o).sr = s.sr := rfl
@[simp] theorem State.pushBit_acc (o : Bit) : (s.pushBit o).acc = withBit s.acc (7 - s.nb.toNat % 8) o := rfl
@[simp] theorem State.pushBit_nb (o : Bit) : (s.pushBit o).nb = s.nb + 1#32 := rfl
@[simp] theorem State.pushBit_ibuf (o : Bit) : (s.pushBit o).ibuf = s.ibuf := rfl
@[simp] theorem State.pushBit_obuf (o : Bit) : (s.pushBit o).obuf = s.obuf := rfl
@[simp] theorem State.pushBit_latency (o : Bit) : (s.pushBit o).latency = s.latency := rfl
@[simp] theorem State.pushBit_latencies (o : Bit) : (s.pushBit o).latencies = s.latencies := rfl
@[simp] theorem State.pushBit_script (o : Bit) : (s.pushBit o).script = s.script := rfl
@[simp] theorem State.pushBit_returned (o : Bit) : (s.pushBit o).returned = s.returned := rfl
@[simp] theorem State.pushBit_draws (o : Bit) : (s.pushBit o).draws = s.draws := rfl
@[simp] theorem State.pushBit_resets (o : Bit) : (s.pushBit o).resets = s.resets := rfl

@[simp] theorem State.clearAcc_params : (s.clearAcc).params = s.params := rfl
@[simp] theorem State.clearAcc_opw : (s.clearAcc).opw = s.opw := rfl
@[simp] theorem State.clearAcc_scheme : (s.clearAcc).scheme = s.scheme := rfl
@[simp] theorem State.clearAcc_busy : (s.clearAcc).busy = s.busy := rfl
@[simp] theorem State.clearAcc_done : (s.clearAcc).done = s.done := rfl
@[simp] theorem State.clearAcc_err : (s.clearAcc).err = s.err := rfl
@[simp] theorem State.clearAcc_arg : (s.clearAcc).arg = s.arg := rfl
@[simp] theorem State.clearAcc_res : (s.clearAcc).res = s.res := rfl
@[simp] theorem State.clearAcc_inLen : (s.clearAcc).inLen = s.inLen := rfl
@[simp] theorem State.clearAcc_outLen : (s.clearAcc).outLen = s.outLen := rfl
@[simp] theorem State.clearAcc_outBits : (s.clearAcc).outBits = s.outBits := rfl
@[simp] theorem State.clearAcc_sr : (s.clearAcc).sr = s.sr := rfl
@[simp] theorem State.clearAcc_acc : (s.clearAcc).acc = 0#8 := rfl
@[simp] theorem State.clearAcc_nb : (s.clearAcc).nb = s.nb := rfl
@[simp] theorem State.clearAcc_ibuf : (s.clearAcc).ibuf = s.ibuf := rfl
@[simp] theorem State.clearAcc_obuf : (s.clearAcc).obuf = s.obuf := rfl
@[simp] theorem State.clearAcc_latency : (s.clearAcc).latency = s.latency := rfl
@[simp] theorem State.clearAcc_latencies : (s.clearAcc).latencies = s.latencies := rfl
@[simp] theorem State.clearAcc_script : (s.clearAcc).script = s.script := rfl
@[simp] theorem State.clearAcc_returned : (s.clearAcc).returned = s.returned := rfl
@[simp] theorem State.clearAcc_draws : (s.clearAcc).draws = s.draws := rfl
@[simp] theorem State.clearAcc_resets : (s.clearAcc).resets = s.resets := rfl

end Sys2Proof.Machine
end

