-- ==== Sys2Proof/Laws/BlockCodec.lean ====
section
/-! SUPPORT. What the two buffer loops of the block codec do (spec/40_block_codec.md R68, R69): one frame lemma and one
value lemma each, and what each checked command answers. -/

namespace Sys2Proof.Machine

/-- `ibufByte` looks only at IBUF, the serial number and the reset count. -/
theorem ibufByte_congr {s t : State} (h : t.ibuf = s.ibuf) (hp : t.params = s.params) (hr : t.resets = s.resets)
    (i : Nat) : t.ibufByte i = s.ibufByte i := by simp [State.ibufByte, h, hp, hr]

/-- `obufByte` looks only at OBUF, the serial number and the reset count. -/
theorem obufByte_congr {s t : State} (h : t.obuf = s.obuf) (hp : t.params = s.params) (hr : t.resets = s.resets)
    (j : Nat) : t.obufByte j = s.obufByte j := by simp [State.obufByte, h, hp, hr]

@[simp] theorem ibufByte_writeObuf (s : State) (i j : Nat) (b : Byte) :
    (s.writeObuf j b).ibufByte i = s.ibufByte i := rfl

/-- R68's loop changes OBUF only. -/
theorem blockEncodeLoop_frame (n i : Nat) (s : State) :
    blockEncodeLoop n i s = { s with obuf := (blockEncodeLoop n i s).obuf } := by
  induction n generalizing i s with
  | zero => rfl
  | succ n ih =>
    unfold blockEncodeLoop
    rw [ih]
    rfl

/-- The byte that R68's loop puts at output index `j`. -/
def blockEncodedByte (s : State) (j : Nat) : Byte :=
  if j % 2 = 0 then encNibble (hiNibble (s.ibufByte (j / 2))) else encNibble (loNibble (s.ibufByte (j / 2)))

@[simp] theorem blockEncodedByte_writeObuf (s : State) (i j : Nat) (b : Byte) :
    blockEncodedByte (s.writeObuf i b) j = blockEncodedByte s j := rfl

/-- R68's loop from index `i` for `n` input bytes, as OBUF is read afterwards. -/
theorem blockEncodeLoop_get? (n i : Nat) (s : State) (j : Nat) :
    Memory.get? (blockEncodeLoop n i s).obuf j =
      if 2 * i ≤ j ∧ j < 2 * (i + n) then some (blockEncodedByte s j) else Memory.get? s.obuf j := by
  induction n generalizing i s with
  | zero =>
    have : ¬(2 * i ≤ j ∧ j < 2 * (i + 0)) := by omega
    simp only [blockEncodeLoop, this, if_false]
  | succ n ih =>
    simp only [blockEncodeLoop, ih, State.writeObuf_obuf, Memory.get?_set]
    by_cases h1 : 2 * (i + 1) ≤ j ∧ j < 2 * (i + 1 + n)
    · have h2 : 2 * i ≤ j ∧ j < 2 * (i + (n + 1)) := by omega
      simp [h1, h2]
    · by_cases h3 : j = 2 * i + 1
      · subst h3
        have h2 : 2 * i ≤ 2 * i + 1 ∧ 2 * i + 1 < 2 * (i + (n + 1)) := by omega
        have h4 : (2 * i + 1) % 2 ≠ 0 := by omega
        have h5 : (2 * i + 1) / 2 = i := by omega
        rw [if_neg h1, if_pos rfl, if_pos h2]
        simp [blockEncodedByte, h5]
      · by_cases h6 : j = 2 * i
        · subst h6
          have h2 : 2 * i ≤ 2 * i ∧ 2 * i < 2 * (i + (n + 1)) := by omega
          have h4 : (2 * i) % 2 = 0 := by omega
          have h5 : (2 * i) / 2 = i := by omega
          rw [if_neg h1, if_neg h3, if_pos rfl, if_pos h2]
          simp [blockEncodedByte, h4, h5]
        · have h2 : ¬(2 * i ≤ j ∧ j < 2 * (i + (n + 1))) := by omega
          rw [if_neg h1, if_neg h3, if_neg h6, if_neg h2]

/-- R68's loop keeps the canonical form. -/
theorem blockEncodeLoop_wf (n i : Nat) {s : State} (h : Memory.wf s.obuf) :
    Memory.wf (blockEncodeLoop n i s).obuf := by
  induction n generalizing i s with
  | zero => exact h
  | succ n ih => exact ih _ (Memory.wf_set (Memory.wf_set h _ _) _ _)

/-- R68's loop stays inside OBUF. -/
theorem blockEncodeLoop_inside (n i : Nat) {s : State} {m : Nat} (h : Memory.inside s.obuf m)
    (hm : 2 * (i + n) ≤ m) : Memory.inside (blockEncodeLoop n i s).obuf m := by
  induction n generalizing i s with
  | zero => exact h
  | succ n ih =>
    exact ih _ (Memory.inside_set (Memory.inside_set h (by omega) _) (by omega) _) (by omega)

/-- R69's loop changes OBUF only. -/
theorem blockDecodeLoop_frame (n i : Nat) (s : State) :
    blockDecodeLoop n i s = { s with obuf := (blockDecodeLoop n i s).obuf } := by
  induction n generalizing i s with
  | zero => rfl
  | succ n ih =>
    unfold blockDecodeLoop
    rw [ih]
    rfl

/-- The byte that R69's loop puts at output index `j`. -/
def blockDecodedByte (s : State) (j : Nat) : Byte :=
  decCodeword (s.ibufByte (2 * j)) ++ decCodeword (s.ibufByte (2 * j + 1))

@[simp] theorem blockDecodedByte_writeObuf (s : State) (i j : Nat) (b : Byte) :
    blockDecodedByte (s.writeObuf i b) j = blockDecodedByte s j := rfl

/-- R69's loop from output index `i` for `n` output bytes, as OBUF is read afterwards. -/
theorem blockDecodeLoop_get? (n i : Nat) (s : State) (j : Nat) :
    Memory.get? (blockDecodeLoop n i s).obuf j =
      if i ≤ j ∧ j < i + n then some (blockDecodedByte s j) else Memory.get? s.obuf j := by
  induction n generalizing i s with
  | zero =>
    have : ¬(i ≤ j ∧ j < i + 0) := by omega
    simp only [blockDecodeLoop, this, if_false]
  | succ n ih =>
    simp only [blockDecodeLoop, ih, State.writeObuf_obuf, Memory.get?_set]
    by_cases h1 : i + 1 ≤ j ∧ j < i + 1 + n
    · have h2 : i ≤ j ∧ j < i + (n + 1) := by omega
      simp [h1, h2]
    · by_cases h3 : j = i
      · subst h3
        have h2 : j ≤ j ∧ j < j + (n + 1) := by omega
        rw [if_neg h1, if_pos rfl, if_pos h2]
        rfl
      · have h2 : ¬(i ≤ j ∧ j < i + (n + 1)) := by omega
        rw [if_neg h1, if_neg h3, if_neg h2]

/-- R69's loop keeps the canonical form. -/
theorem blockDecodeLoop_wf (n i : Nat) {s : State} (h : Memory.wf s.obuf) :
    Memory.wf (blockDecodeLoop n i s).obuf := by
  induction n generalizing i s with
  | zero => exact h
  | succ n ih => exact ih _ (Memory.wf_set h _ _)

/-- R69's loop stays inside OBUF. -/
theorem blockDecodeLoop_inside (n i : Nat) {s : State} {m : Nat} (h : Memory.inside s.obuf m)
    (hm : i + n ≤ m) : Memory.inside (blockDecodeLoop n i s).obuf m := by
  induction n generalizing i s with
  | zero => exact h
  | succ n ih => exact ih _ (Memory.inside_set h (by omega) _) (by omega)

/-- The three ways a block encode can end (R68). -/
theorem blockEncode_cases (s : State) :
    (s.params.ibufBytes < s.inLen.toNat ∨ s.params.obufBytes < 2 * s.inLen.toNat) ∧
        blockEncode s = s.raise .sizeError ∨
      s.inLen.toNat ≤ s.params.ibufBytes ∧ 2 * s.inLen.toNat ≤ s.params.obufBytes ∧
        blockEncode s =
          ((blockEncodeLoop s.inLen.toNat 0 s).setOutput (2 * s.inLen.toNat) (16 * s.inLen.toNat)).complete .none := by
  unfold blockEncode State.inputLength
  by_cases h1 : s.params.ibufBytes < s.inLen.toNat
  · exact .inl ⟨.inl h1, by simp only [h1, if_true]⟩
  · by_cases h2 : s.params.obufBytes < 2 * s.inLen.toNat
    · exact .inl ⟨.inr h2, by simp only [h1, h2, if_true, if_false]⟩
    · exact .inr ⟨by omega, by omega, by simp only [h1, h2, if_false]⟩

/-- The ways a block decode can end, in R101's order (R69). -/
theorem blockDecode_cases (s : State) :
    s.params.ibufBytes < s.inLen.toNat ∧ blockDecode s = s.raise .sizeError ∨
      s.inLen.toNat ≤ s.params.ibufBytes ∧ s.inLen.toNat % 2 = 1 ∧ blockDecode s = s.raise .invalidLength ∨
      s.inLen.toNat ≤ s.params.ibufBytes ∧ s.inLen.toNat % 2 = 0 ∧ s.params.obufBytes < s.inLen.toNat / 2 ∧
        blockDecode s = s.raise .sizeError ∨
      s.inLen.toNat ≤ s.params.ibufBytes ∧ s.inLen.toNat % 2 = 0 ∧ s.inLen.toNat / 2 ≤ s.params.obufBytes ∧
        blockDecode s =
          ((blockDecodeLoop (s.inLen.toNat / 2) 0 s).setOutput (s.inLen.toNat / 2)
            (8 * (s.inLen.toNat / 2))).complete .none := by
  unfold blockDecode State.inputLength
  by_cases h1 : s.params.ibufBytes < s.inLen.toNat
  · exact .inl ⟨h1, by simp only [h1, if_true]⟩
  · by_cases h2 : s.inLen.toNat % 2 = 1
    · exact .inr (.inl ⟨by omega, h2, by simp only [h1, h2, if_true, if_false]⟩)
    · by_cases h3 : s.params.obufBytes < s.inLen.toNat / 2
      · exact .inr (.inr (.inl ⟨by omega, by omega, h3, by simp only [h1, h2, h3, if_true, if_false]⟩))
      · exact .inr (.inr (.inr ⟨by omega, by omega, by omega, by simp only [h1, h2, h3, if_false]⟩))

/-- `raise` as R102 words it. -/
theorem raise_errorCompleted (s : State) (e : ErrCode) : ErrorCompleted e s (s.raise e) := rfl

/-- A block encode whose lengths fit leaves what R68 says. -/
theorem blockEncode_blockEncoded {s : State} (hi : s.inLen.toNat ≤ s.params.ibufBytes)
    (ho : 2 * s.inLen.toNat ≤ s.params.obufBytes) : BlockEncoded s (blockEncode s) := by
  have hb := s.params.ibufBytes_le
  obtain ⟨h, -⟩ | ⟨-, -, h⟩ := blockEncode_cases s
  · omega
  have hg := blockEncodeLoop_get? s.inLen.toNat 0 s
  have hf := blockEncodeLoop_frame s.inLen.toNat 0 s
  have hp : (blockEncode s).params = s.params := by rw [h, hf]; rfl
  have hr : (blockEncode s).resets = s.resets := by rw [h, hf]; rfl
  have hob : (blockEncode s).obuf = (blockEncodeLoop s.inLen.toNat 0 s).obuf := by rw [h]; rfl
  refine ⟨?_, ?_, ?_, ?_, ?_⟩
  · unfold BlockFrame
    rw [h, hf]
    rfl
  · rw [h]
    exact toNat_ofNat_32 (by omega)
  · rw [h]
    exact toNat_ofNat_32 (by omega)
  · intro i hlt
    have h2 : (2 * i + 1) / 2 = i := by omega
    have h3 : 2 * 0 ≤ 2 * i ∧ 2 * i < 2 * (0 + s.inLen.toNat) := by omega
    have h4 : 2 * 0 ≤ 2 * i + 1 ∧ 2 * i + 1 < 2 * (0 + s.inLen.toNat) := by omega
    constructor
    · rw [State.obufByte, hob, hg, if_pos h3]
      simp [blockEncodedByte, hiNibble]
    · rw [State.obufByte, hob, hg, if_pos h4]
      simp [blockEncodedByte, h2, loNibble]
  · intro j hj
    have h1 : ¬(2 * 0 ≤ j ∧ j < 2 * (0 + s.inLen.toNat)) := by omega
    simp only [State.obufByte, hob, hp, hr, hg, if_neg h1]

/-- A block decode of even length whose lengths fit leaves what R69 says. -/
theorem blockDecode_blockDecoded {s : State} (hi : s.inLen.toNat ≤ s.params.ibufBytes) (he : s.inLen.toNat % 2 = 0)
    (ho : s.inLen.toNat / 2 ≤ s.params.obufBytes) : BlockDecoded s (blockDecode s) := by
  have hb := s.params.ibufBytes_le
  obtain ⟨h, -⟩ | ⟨-, h, -⟩ | ⟨-, -, h, -⟩ | ⟨-, -, -, h⟩ := blockDecode_cases s
  · omega
  · omega
  · omega
  have hg := blockDecodeLoop_get? (s.inLen.toNat / 2) 0 s
  have hf := blockDecodeLoop_frame (s.inLen.toNat / 2) 0 s
  have hp : (blockDecode s).params = s.params := by rw [h, hf]; rfl
  have hr : (blockDecode s).resets = s.resets := by rw [h, hf]; rfl
  have hob : (blockDecode s).obuf = (blockDecodeLoop (s.inLen.toNat / 2) 0 s).obuf := by rw [h]; rfl
  refine ⟨?_, ?_, ?_, ?_, ?_⟩
  · unfold BlockFrame
    rw [h, hf]
    rfl
  · rw [h]
    exact toNat_ofNat_32 (by omega)
  · rw [h]
    exact toNat_ofNat_32 (by omega)
  · intro i hlt
    have h3 : 0 ≤ i ∧ i < 0 + s.inLen.toNat / 2 := by omega
    rw [State.obufByte, hob, hg, if_pos h3]
    rfl
  · intro j hj
    have h1 : ¬(0 ≤ j ∧ j < 0 + s.inLen.toNat / 2) := by omega
    simp only [State.obufByte, hob, hp, hr, hg, if_neg h1]

end Sys2Proof.Machine
end

