-- ==== Sys2Proof/Laws/ConvEncoder.lean ====
section
/-! SUPPORT. The convolutional encoder emits the stream of spec/41_conv_encoder.md R76, packed as R78 says: an invariant
of the packer, an invariant of the encoder steps, and what CONV leaves. -/

namespace Sys2Proof.Machine

/-- `s` is `s₀` after the packer has emitted the first `n` bits of the stream `f` (R78). -/
structure Packed (f : Nat → Bit) (s₀ : State) (n : Nat) (s : State) : Prop where
  frame : s = { s₀ with sr := s.sr, acc := s.acc, nb := s.nb, obuf := s.obuf }
  count : s.nb.toNat = n
  full : ∀ j, j < n / 8 → ∃ v, Memory.get? s.obuf j = some v ∧ ∀ k, k < 8 → bit v (7 - k) = f (8 * j + k)
  part : ∀ k, k < 8 → bit s.acc (7 - k) = if k < n % 8 then f (8 * (n / 8) + k) else 0#1
  rest : ∀ j, n / 8 ≤ j → Memory.get? s.obuf j = Memory.get? s₀.obuf j
  wf : Memory.wf s₀.obuf → Memory.wf s.obuf
  inside : ∀ m, n / 8 ≤ m → Memory.inside s₀.obuf m → Memory.inside s.obuf m

/-- Clearing SR, ACC and NB leaves nothing emitted (R81). -/
theorem clearEncoder_packed (f : Nat → Bit) (s : State) : Packed f s 0 s.clearEncoder where
  frame := rfl
  count := rfl
  full := by simp
  part := by simp
  rest := fun _ _ => rfl
  wf := id
  inside := fun _ _ h => h

/-- Setting SR emits nothing. -/
theorem Packed.setSr {f : Nat → Bit} {s₀ s : State} {n : Nat} (h : Packed f s₀ n s) (v : BitVec 3) :
    Packed f s₀ n (s.setSr v) where
  frame := by rw [h.frame]; rfl
  count := h.count
  full := h.full
  part := h.part
  rest := h.rest
  wf := h.wf
  inside := h.inside

/-- The bits of ACC after one more bit is put in it (R78). -/
theorem pushBit_acc {f : Nat → Bit} {s₀ s : State} {n : Nat} (h : Packed f s₀ n s) {k : Nat} (hk : k < 8) :
    bit (s.pushBit (f n)).acc (7 - k) = if k < n % 8 + 1 then f (8 * (n / 8) + k) else 0#1 := by
  rw [State.pushBit_acc, h.count, bit_withBit _ (by omega)]
  by_cases h1 : k = n % 8
  · subst h1
    have : 8 * (n / 8) + n % 8 = n := Nat.div_add_mod n 8
    rw [if_pos rfl, if_pos (by omega), this]
  · rw [if_neg (by omega), h.part k hk]
    by_cases h2 : k < n % 8
    · rw [if_pos h2, if_pos (by omega)]
    · rw [if_neg h2, if_neg (by omega)]

/-- `emit` of the next bit of the stream (R78). -/
theorem Packed.emit {f : Nat → Bit} {s₀ s : State} {n : Nat} (h : Packed f s₀ n s) (hn : n + 1 < 2 ^ 32) :
    Packed f s₀ (n + 1) (s.emit (f n)) := by
  have hc : (s.pushBit (f n)).nb.toNat = n + 1 := by
    rw [State.pushBit_nb, BitVec.toNat_add, h.count]
    exact Nat.mod_eq_of_lt hn
  have hacc := fun {k : Nat} (hk : k < 8) => pushBit_acc h hk
  unfold State.emit
  simp only [hc]
  by_cases h8 : (n + 1) % 8 = 0
  · rw [if_pos h8]
    have hm : n % 8 = 7 := by omega
    have hd : (n + 1) / 8 = n / 8 + 1 := by omega
    have hj : (n + 1) / 8 - 1 = n / 8 := by omega
    refine ⟨by rw [h.frame]; rfl, hc, ?_, ?_, ?_, ?_, ?_⟩
    · intro j hlt
      simp only [State.clearAcc_obuf, State.writeObuf_obuf, Memory.get?_set, State.pushBit_obuf, hj]
      by_cases h1 : j = n / 8
      · subst h1
        refine ⟨_, if_pos rfl, fun k hk => ?_⟩
        rw [hacc hk, if_pos (by omega)]
      · rw [if_neg h1]
        exact h.full j (by omega)
    · intro k hk
      rw [State.clearAcc_acc, bit_zero, if_neg (by omega)]
    · intro j hle
      simp only [State.clearAcc_obuf, State.writeObuf_obuf, Memory.get?_set, State.pushBit_obuf, hj]
      rw [if_neg (by omega)]
      exact h.rest j (by omega)
    · exact fun hw => Memory.wf_set (h.wf hw) _ _
    · exact fun m hm hi => Memory.inside_set (h.inside m (by omega) hi) (by omega) _
  · rw [if_neg h8]
    have hd : (n + 1) / 8 = n / 8 := by omega
    have hm : (n + 1) % 8 = n % 8 + 1 := by omega
    refine ⟨by rw [h.frame]; rfl, hc, ?_, ?_, ?_, h.wf, ?_⟩
    · rw [hd]
      exact h.full
    · intro k hk
      rw [hacc hk, hd, hm]
    · rw [hd]
      exact h.rest
    · rw [hd]
      exact h.inside

/-- The register after `T` steps: `{b_(T-3), b_(T-2), b_(T-1)}` (R76). -/
def registerAfter (s : State) (T : Nat) : BitVec 3 := convPastBit s T 3 ++ convPastBit s T 2 ++ convPastBit s T 1

/-- `s` is `s₀` after `T` encoder steps (R77). -/
structure Stepped (s₀ : State) (T : Nat) (s : State) : Prop where
  packed : Packed (convStreamBit s₀) s₀ (2 * T) s
  register : s.sr = registerAfter s₀ T

theorem clearEncoder_stepped (s : State) : Stepped s 0 s.clearEncoder where
  packed := clearEncoder_packed _ s
  register := by simp [registerAfter, convPastBit]

/-- The step in terms of the last three bits (R76). -/
theorem convStep_bits (x y z b : Bit) :
    convStep (x ++ y ++ z) b = (y ++ z ++ b, b ^^^ z ^^^ y, b ^^^ y) := by
  revert x y z b
  decide

theorem convPastBit_succ (s : State) (T k : Nat) : convPastBit s (T + 1) (k + 1) = convPastBit s T k := by
  simp [convPastBit]

/-- One encoder step on the next input bit (R75, R77). -/
theorem Stepped.feed {s₀ s : State} {T : Nat} (h : Stepped s₀ T s) (hT : 2 * T + 2 < 2 ^ 32) :
    Stepped s₀ (T + 1) (convFeed (convInputBit s₀ T) s) := by
  have h0 : convPastBit s₀ T 0 = convInputBit s₀ T := by simp [convPastBit]
  have h1 : convStreamBit s₀ (2 * T) = convInputBit s₀ T ^^^ convPastBit s₀ T 1 ^^^ convPastBit s₀ T 2 := by
    have : 2 * T / 2 = T := by omega
    simp [convStreamBit, this, h0]
  have h2 : convStreamBit s₀ (2 * T + 1) = convInputBit s₀ T ^^^ convPastBit s₀ T 2 := by
    have h3 : (2 * T + 1) / 2 = T := by omega
    have h4 : (2 * T + 1) % 2 ≠ 0 := by omega
    simp [convStreamBit, h3, h0]
  have hstep : convStep s.sr (convInputBit s₀ T) =
      (registerAfter s₀ (T + 1), convStreamBit s₀ (2 * T), convStreamBit s₀ (2 * T + 1)) := by
    rw [h.register, registerAfter, convStep_bits, registerAfter, convPastBit_succ, convPastBit_succ, convPastBit_succ,
      h0, h1, h2]
  unfold convFeed
  simp only [hstep]
  refine ⟨?_, ?_⟩
  · have := ((h.packed.setSr (registerAfter s₀ (T + 1))).emit (by omega)).emit (by omega)
    rwa [show 2 * T + 1 + 1 = 2 * (T + 1) by ring] at this
  · have hsr : ∀ (t : State) (o : Bit), (t.emit o).sr = t.sr := by
      intro t o
      unfold State.emit
      simp only
      split <;> rfl
    rw [hsr, hsr]
    rfl

/-- The steps of the low `k` bits of a byte, most significant first (R77). -/
theorem Stepped.feedByte {s₀ s : State} {T k : Nat} {B : Byte} (h : Stepped s₀ T s) (hT : 2 * (T + k) < 2 ^ 32)
    (hB : ∀ d, d < k → bit B (k - 1 - d) = convInputBit s₀ (T + d)) :
    Stepped s₀ (T + k) (convFeedByte B k s) := by
  induction k generalizing T s with
  | zero => exact h
  | succ k ih =>
    have h0 : bit B k = convInputBit s₀ T := by simpa using hB 0 (by omega)
    unfold convFeedByte
    rw [h0, show T + (k + 1) = T + 1 + k by omega]
    refine ih (h.feed (by omega)) (by omega) fun d hd => ?_
    have := hB (d + 1) (by omega)
    rwa [show k + 1 - 1 - (d + 1) = k - 1 - d by omega, show T + (d + 1) = T + 1 + d by omega] at this

/-- An encode reads IBUF as it was at the start (R34: no command writes IBUF). -/
theorem Stepped.ibufByte {s₀ s : State} {T : Nat} (h : Stepped s₀ T s) (i : Nat) : s.ibufByte i = s₀.ibufByte i := by
  rw [h.packed.frame]
  rfl

/-- R81's loop over the input bytes. -/
theorem Stepped.loop {s₀ s : State} {n i : Nat} (h : Stepped s₀ (8 * i) s) (hn : i + n ≤ s₀.inLen.toNat)
    (hL : 16 * (i + n) < 2 ^ 32) : Stepped s₀ (8 * (i + n)) (convLoop n i s) := by
  induction n generalizing i s with
  | zero => exact h
  | succ n ih =>
    unfold convLoop
    rw [show i + (n + 1) = i + 1 + n by omega]
    refine ih ?_ (by omega) (by omega)
    rw [show 8 * (i + 1) = 8 * i + 8 by ring, h.ibufByte]
    refine h.feedByte (by omega) fun d hd => ?_
    have h1 : 8 * i + d < 8 * s₀.inLen.toNat := by omega
    have h2 : (8 * i + d) / 8 = i := by omega
    have h3 : 8 - 1 - d = 7 - (8 * i + d) % 8 := by omega
    rw [convInputBit, if_pos h1, h2, h3]

/-- The tail steps (R79). -/
theorem Stepped.tail {s₀ s : State} {T n : Nat} (h : Stepped s₀ T s) (hL : 8 * s₀.inLen.toNat ≤ T)
    (hT : 2 * (T + n) < 2 ^ 32) : Stepped s₀ (T + n) (convTail n s) := by
  induction n generalizing T s with
  | zero => exact h
  | succ n ih =>
    have h0 : convInputBit s₀ T = 0#1 := by
      rw [convInputBit, if_neg (by omega)]
    unfold convTail
    rw [show T + (n + 1) = T + 1 + n by omega, ← h0]
    exact ih (h.feed (by omega)) (by omega) (by omega)

/-- All the steps of an encode, before the last byte is written (R77). -/
theorem convSteps_stepped {s : State} (hi : s.inLen.toNat ≤ s.params.ibufBytes) :
    Stepped s (8 * s.inLen.toNat + 2) (convTail tailLength (convLoop s.inLen.toNat 0 s.clearEncoder)) := by
  have hb := s.params.ibufBytes_le
  have h1 : Stepped s (8 * (0 + s.inLen.toNat)) (convLoop s.inLen.toNat 0 s.clearEncoder) :=
    (clearEncoder_stepped s).loop (by omega) (by omega)
  rw [Nat.zero_add] at h1
  exact h1.tail (n := 2) (le_refl _) (by omega)

/-- What the whole encode of an input that fits in IBUF leaves (R77 to R80). -/
structure Encoded (s t : State) : Prop where
  frame : t = { s with sr := t.sr, acc := t.acc, nb := t.nb, obuf := t.obuf }
  count : t.nb.toNat = 16 * s.inLen.toNat + 4
  register : t.sr = (if s.inLen.toNat = 0 then 0#1 else bit (s.ibufByte (s.inLen.toNat - 1)) 0) ++ 0#2
  bytes : ∀ j, j ≤ 2 * s.inLen.toNat → ∃ v, Memory.get? t.obuf j = some v ∧
    ∀ k, k < 8 → bit v (7 - k) = if 8 * j + k < 16 * s.inLen.toNat + 4 then convStreamBit s (8 * j + k) else 0#1
  last : Memory.get? t.obuf (2 * s.inLen.toNat) = some t.acc
  accTail : t.acc.extractLsb' 0 4 = 0#4
  rest : ∀ j, 2 * s.inLen.toNat + 1 ≤ j → Memory.get? t.obuf j = Memory.get? s.obuf j
  wf : Memory.wf s.obuf → Memory.wf t.obuf
  inside : ∀ m, 2 * s.inLen.toNat + 1 ≤ m → Memory.inside s.obuf m → Memory.inside t.obuf m

/-- The encode of an input that fits in IBUF. -/
theorem convRun_encoded {s : State} (hi : s.inLen.toNat ≤ s.params.ibufBytes) : Encoded s (convRun s) := by
  have h := convSteps_stepped hi
  unfold convRun State.inputLength convFlush
  generalize convTail tailLength (convLoop s.inLen.toNat 0 s.clearEncoder) = u at h
  obtain ⟨hp, hr⟩ := h
  have hc : u.nb.toNat = 16 * s.inLen.toNat + 4 := by rw [hp.count]; omega
  have hm : 2 * (8 * s.inLen.toNat + 2) % 8 = 4 := by omega
  have hd : 2 * (8 * s.inLen.toNat + 2) / 8 = 2 * s.inLen.toNat := by omega
  have hd' : u.nb.toNat / 8 = 2 * s.inLen.toNat := by omega
  have hpart := hp.part
  have hfull := hp.full
  have hrest := hp.rest
  have hins := hp.inside
  rw [hm, hd] at hpart
  rw [hd] at hfull hrest hins
  rw [if_neg (by omega), hd']
  refine ⟨?_, hc, ?_, ?_, ?_, ?_, ?_, fun hw => Memory.wf_set (hp.wf hw) _ _,
    fun m hm hin => Memory.inside_set (hins m (by omega) hin) (by omega) _⟩
  · rw [hp.frame]
    rfl
  · rw [State.writeObuf_sr, hr, registerAfter]
    have t1 : convPastBit s (8 * s.inLen.toNat + 2) 1 = 0#1 := by
      rw [convPastBit, if_pos (by omega), convInputBit, if_neg (by omega)]
    have t2 : convPastBit s (8 * s.inLen.toNat + 2) 2 = 0#1 := by
      rw [convPastBit, if_pos (by omega), convInputBit, if_neg (by omega)]
    have t3 : convPastBit s (8 * s.inLen.toNat + 2) 3 =
        if s.inLen.toNat = 0 then 0#1 else bit (s.ibufByte (s.inLen.toNat - 1)) 0 := by
      by_cases h0 : s.inLen.toNat = 0
      · rw [if_pos h0, convPastBit, if_neg (by omega)]
      · have h1 : (8 * s.inLen.toNat + 2 - 3) / 8 = s.inLen.toNat - 1 := by omega
        have h2 : 7 - (8 * s.inLen.toNat + 2 - 3) % 8 = 0 := by omega
        rw [if_neg h0, convPastBit, if_pos (by omega), convInputBit, if_pos (by omega), h1, h2]
    rw [t1, t2, t3]
    generalize (if s.inLen.toNat = 0 then 0#1 else bit (s.ibufByte (s.inLen.toNat - 1)) 0) = x
    revert x
    decide
  · intro j hj
    rw [State.writeObuf_obuf, Memory.get?_set]
    by_cases h1 : j = 2 * s.inLen.toNat
    · subst h1
      refine ⟨_, if_pos rfl, fun k hk => ?_⟩
      rw [hpart k hk]
      by_cases h2 : k < 4
      · rw [if_pos h2, if_pos (by omega)]
      · rw [if_neg h2, if_neg (by omega)]
    · rw [if_neg h1]
      obtain ⟨v, hv, hk⟩ := hfull j (by omega)
      refine ⟨v, hv, fun k hk8 => ?_⟩
      rw [hk k hk8, if_pos (by omega)]
  · rw [State.writeObuf_obuf, State.writeObuf_acc]
    exact Memory.get?_set_same _ _ _
  · rw [State.writeObuf_acc]
    refine lowNibble_eq_zero fun k hk => ?_
    have := hpart (7 - k) (by omega)
    rwa [if_neg (by omega), show 7 - (7 - k) = k by omega] at this
  · intro j hj
    rw [State.writeObuf_obuf, Memory.get?_set, if_neg (by omega)]
    exact hrest j (by omega)

/-- The two ways a convolutional encode can end (R81). -/
theorem convEncode_cases (s : State) :
    (s.params.ibufBytes < s.inLen.toNat ∨ s.params.obufBytes < 2 * s.inLen.toNat + 1) ∧
        convEncode s = s.raise .sizeError ∨
      s.inLen.toNat ≤ s.params.ibufBytes ∧ 2 * s.inLen.toNat + 1 ≤ s.params.obufBytes ∧
        convEncode s = (convLengths (convRun s)).complete .none := by
  unfold convEncode State.inputLength
  by_cases h1 : s.params.ibufBytes < s.inLen.toNat
  · exact .inl ⟨.inl h1, by simp only [h1, if_true]⟩
  · by_cases h2 : s.params.obufBytes < 2 * s.inLen.toNat + 1
    · exact .inl ⟨.inr h2, by simp only [h1, h2, if_true, if_false]⟩
    · exact .inr ⟨by omega, by omega, by simp only [h1, h2, if_false]⟩

/-- A convolutional encode whose lengths fit leaves what R81 says. -/
theorem convEncode_convEncoded {s : State} (hi : s.inLen.toNat ≤ s.params.ibufBytes)
    (ho : 2 * s.inLen.toNat + 1 ≤ s.params.obufBytes) : ConvEncoded s (convEncode s) := by
  have hb := s.params.ibufBytes_le
  obtain ⟨h, -⟩ | ⟨-, -, h⟩ := convEncode_cases s
  · omega
  have e := convRun_encoded hi
  rw [h]
  generalize convRun s = u at e
  have hpar : u.params = s.params := by rw [e.frame]
  have hres : u.resets = s.resets := by rw [e.frame]
  have hlast : ((convLengths u).complete .none).obufByte (2 * s.inLen.toNat) = u.acc := by
    show (Memory.get? u.obuf _).getD _ = _
    rw [e.last]
    rfl
  refine ⟨?_, ?_, ?_, ?_, ?_, ?_, e.register, e.count, ?_⟩
  · unfold ConvFrame
    rw [e.frame]
    rfl
  · show (BitVec.ofNat 32 ((u.nb.toNat + 7) / 8)).toNat = _
    rw [e.count, toNat_ofNat_32 (by omega)]
    omega
  · show (BitVec.ofNat 32 u.nb.toNat).toNat = _
    rw [e.count, toNat_ofNat_32 (by omega)]
  · intro k hk
    obtain ⟨v, hv, hbits⟩ := e.bytes (k / 8) (by omega)
    show bit ((Memory.get? u.obuf _).getD _) _ = _
    rw [hv]
    have := hbits (k % 8) (by omega)
    rwa [Nat.div_add_mod, if_pos hk] at this
  · rw [hlast]
    exact e.accTail
  · intro j hj
    show (Memory.get? u.obuf j).getD (Config.obufPowerOn u.params.serial u.resets j) = _
    rw [e.rest j hj, hpar, hres]
    rfl
  · rw [hlast]
    rfl

end Sys2Proof.Machine
end

