-- ==== Sys2Proof/Laws/Commands.lean ====
section
/-! SUPPORT. Once, everything an executed command can do: an inversion of `exec` (spec/30_encoding.md R46), which the
invariant and the frame statements cite. -/

namespace Sys2Proof.Machine

/-- How an executed command ended, and what it left. -/
inductive Ended (i : Instr) (s t : State) : Prop
  /-- Error completion (R102). -/
  | error (e : ErrCode) (he : e ≠ .none) (hi : i ≠ .encn) (hd : i ≠ .decc) (ht : t = s.raise e)
  /-- A result in RES (R66, R67). -/
  | single (b : Byte) (hb : bit b 7 = 0#1) (hi : i = .encn ∨ i = .decc) (ht : t = (s.setRes b).complete .none)
  /-- A block encode (R68). -/
  | encoded (hi : s.inLen.toNat ≤ s.params.ibufBytes) (ho : 2 * s.inLen.toNat ≤ s.params.obufBytes)
      (hc : i = .encb ∨ i = .penc ∧ s.scheme = .block)
      (ht : t = ((blockEncodeLoop s.inLen.toNat 0 s).setOutput (2 * s.inLen.toNat) (16 * s.inLen.toNat)).complete .none)
  /-- A block decode (R69). -/
  | decoded (hi : s.inLen.toNat ≤ s.params.ibufBytes) (he : s.inLen.toNat % 2 = 0)
      (ho : s.inLen.toNat / 2 ≤ s.params.obufBytes) (hc : i = .decb ∨ i = .pdec ∧ s.scheme = .block)
      (ht : t = ((blockDecodeLoop (s.inLen.toNat / 2) 0 s).setOutput (s.inLen.toNat / 2)
        (8 * (s.inLen.toNat / 2))).complete .none)
  /-- A convolutional encode (R81). -/
  | convolved (hi : s.inLen.toNat ≤ s.params.ibufBytes) (ho : 2 * s.inLen.toNat + 1 ≤ s.params.obufBytes)
      (hc : i = .conv ∨ i = .penc ∧ s.scheme = .conv) (ht : t = (convLengths (convRun s)).complete .none)

theorem encNibble_top (n : Nibble) : bit (encNibble n) 7 = 0#1 := by revert n; decide

theorem setWidth_nibble_top (n : Nibble) : bit (n.setWidth 8) 7 = 0#1 := by revert n; decide

theorem blockEncode_ended {i : Instr} {s : State} (hc : i = .encb ∨ i = .penc ∧ s.scheme = .block) :
    Ended i s (blockEncode s) := by
  have h1 : i ≠ .encn := by rintro rfl; simp at hc
  have h2 : i ≠ .decc := by rintro rfl; simp at hc
  obtain ⟨-, h⟩ | ⟨hi, ho, h⟩ := blockEncode_cases s
  · exact .error .sizeError (by decide) h1 h2 h
  · exact .encoded hi ho hc h

theorem blockDecode_ended {i : Instr} {s : State} (hc : i = .decb ∨ i = .pdec ∧ s.scheme = .block) :
    Ended i s (blockDecode s) := by
  have h1 : i ≠ .encn := by rintro rfl; simp at hc
  have h2 : i ≠ .decc := by rintro rfl; simp at hc
  obtain ⟨-, h⟩ | ⟨-, -, h⟩ | ⟨-, -, -, h⟩ | ⟨hi, he, ho, h⟩ := blockDecode_cases s
  · exact .error .sizeError (by decide) h1 h2 h
  · exact .error .invalidLength (by decide) h1 h2 h
  · exact .error .sizeError (by decide) h1 h2 h
  · exact .decoded hi he ho hc h

theorem convEncode_ended {i : Instr} {s : State} (hc : i = .conv ∨ i = .penc ∧ s.scheme = .conv) :
    Ended i s (convEncode s) := by
  have h1 : i ≠ .encn := by rintro rfl; simp at hc
  have h2 : i ≠ .decc := by rintro rfl; simp at hc
  obtain ⟨-, h⟩ | ⟨hi, ho, h⟩ := convEncode_cases s
  · exact .error .sizeError (by decide) h1 h2 h
  · exact .convolved hi ho hc h

/-- Every command answers a next state, of one of the kinds of `Ended`. -/
theorem exec_ended (i : Instr) (s : State) : ∃ t, exec i s = .next t ∧ Ended i s t := by
  cases i with
  | encn => exact ⟨_, rfl, .single _ (encNibble_top _) (.inl rfl) rfl⟩
  | decc => exact ⟨_, rfl, .single _ (setWidth_nibble_top _) (.inr rfl) rfl⟩
  | encb => exact ⟨_, rfl, blockEncode_ended (.inl rfl)⟩
  | decb => exact ⟨_, rfl, blockDecode_ended (.inl rfl)⟩
  | conv => exact ⟨_, rfl, convEncode_ended (.inl rfl)⟩
  | penc =>
    cases h : s.scheme with
    | block => exact ⟨blockEncode s, by simp [exec, execPenc, h], blockEncode_ended (.inr ⟨rfl, h⟩)⟩
    | conv => exact ⟨convEncode s, by simp [exec, execPenc, h], convEncode_ended (.inr ⟨rfl, h⟩)⟩
  | pdec =>
    cases h : s.scheme with
    | block => exact ⟨blockDecode s, by simp [exec, execPdec, h], blockDecode_ended (.inr ⟨rfl, h⟩)⟩
    | conv =>
      exact ⟨s.raise .unsupported, by simp [exec, execPdec, h], .error _ (by decide) (by decide) (by decide) rfl⟩

/-- The inversion lemma of `exec`. -/
theorem exec_cases {i : Instr} {s t : State} (h : exec i s = .next t) : Ended i s t := by
  obtain ⟨u, hu, he⟩ := exec_ended i s
  rw [h] at hu
  cases hu
  exact he

/-- The fields that no command writes, and the completion event (R28). -/
structure Completes (s t : State) : Prop where
  params : t.params = s.params
  opw : t.opw = s.opw
  scheme : t.scheme = s.scheme
  arg : t.arg = s.arg
  inLen : t.inLen = s.inLen
  ibuf : t.ibuf = s.ibuf
  latency : t.latency = s.latency
  latencies : t.latencies = s.latencies
  script : t.script = s.script
  returned : t.returned = s.returned
  draws : t.draws = s.draws
  resets : t.resets = s.resets
  busy : t.busy = false
  done : t.done = true

theorem Ended.completes {i : Instr} {s t : State} (h : Ended i s t) : Completes s t := by
  cases h with
  | error e _ _ _ ht => subst ht; constructor <;> rfl
  | single b _ _ ht => subst ht; constructor <;> rfl
  | encoded _ _ _ ht => subst ht; rw [blockEncodeLoop_frame]; constructor <;> rfl
  | decoded _ _ _ _ ht => subst ht; rw [blockDecodeLoop_frame]; constructor <;> rfl
  | convolved hi _ _ ht => subst ht; rw [(convRun_encoded hi).frame]; constructor <;> rfl

/-- An executed command reports ERR = 0 exactly when it was not an error completion. -/
theorem Ended.noError {i : Instr} {s t : State} (h : Ended i s t) (hn : t.err ≠ .none) : ErrorCompleted t.err s t := by
  cases h with
  | error e _ _ _ ht => subst ht; rfl
  | single b _ _ ht => subst ht; exact absurd rfl hn
  | encoded _ _ _ ht => subst ht; exact absurd rfl hn
  | decoded _ _ _ _ ht => subst ht; exact absurd rfl hn
  | convolved hi _ _ ht => subst ht; exact absurd rfl hn

end Sys2Proof.Machine
end

