-- ==== Sys2Proof/Laws/Decode.lean ====
section
/-! SUPPORT. Once, everything the decoder of command words can answer (spec/30_encoding.md R46, R47). -/

namespace Sys2Proof

/-- A word whose reserved field is clear is its operation code. -/
theorem toNat_of_reservedClear {w : Word} (h : w.extractLsb' 3 29 = 0#29) :
    w.toNat = (w.extractLsb' 0 3).toNat := by
  have h1 := congrArg BitVec.toNat h
  simp only [BitVec.extractLsb'_toNat, BitVec.toNat_ofNat, Nat.shiftRight_eq_div_pow] at h1 ⊢
  have := w.isLt
  omega

/-- The three answers of the decoder. -/
theorem decode_cases (w : Word) :
    w.extractLsb' 3 29 ≠ 0#29 ∧ decode w = .error .reservedBitsSet ∨
      w = 0#32 ∧ decode w = .error .operationZero ∨
      ∃ i, w = encode i ∧ decode w = .ok i := by
  by_cases h : w.extractLsb' 3 29 = 0#29
  · have hlt : w.toNat < 8 := by
      have := (w.extractLsb' 0 3).isLt
      rw [toNat_of_reservedClear h]
      omega
    have hw : w = BitVec.ofNat 32 w.toNat := by simp
    generalize w.toNat = n at hw hlt
    subst hw
    right
    interval_cases n
    · exact .inl ⟨rfl, rfl⟩
    · exact .inr ⟨.encn, rfl, rfl⟩
    · exact .inr ⟨.decc, rfl, rfl⟩
    · exact .inr ⟨.encb, rfl, rfl⟩
    · exact .inr ⟨.decb, rfl, rfl⟩
    · exact .inr ⟨.conv, rfl, rfl⟩
    · exact .inr ⟨.penc, rfl, rfl⟩
    · exact .inr ⟨.pdec, rfl, rfl⟩
  · left
    exact ⟨h, by rw [decode, if_pos h]⟩

end Sys2Proof
end

