-- ==== Sys2Proof/Laws/PerInstr.lean ====
section
/-! SUPPORT. The family OneWord, instruction by instruction (spec/30_encoding.md R45, R46): the command's word is well
formed and stands in exactly one row of the opcode table. -/

namespace Sys2Proof.Laws.OneWord

/-- The word of `i` is well formed, and the rows of the table that it matches are the one row of `i`. -/
def Statement (i : Instr) : Prop :=
  i.wellFormed = true ∧ CommandWord.wellFormed (encode i) = true ∧
    (opcodeTable.filter fun r => encode i &&& r.mask == r.pattern).map (fun r => r.command) = [i]

theorem encn : Statement .encn := by unfold Statement; decide
theorem decc : Statement .decc := by unfold Statement; decide
theorem encb : Statement .encb := by unfold Statement; decide
theorem decb : Statement .decb := by unfold Statement; decide
theorem conv : Statement .conv := by unfold Statement; decide
theorem penc : Statement .penc := by unfold Statement; decide
theorem pdec : Statement .pdec := by unfold Statement; decide

end Sys2Proof.Laws.OneWord
end

