-- ==== Sys2Proof/Laws/Sequencer.lean ====
section
/-! SUPPORT. Once, everything a step can do: an inversion of the host's accesses and moves (spec/20_memory.md R36,
spec/70_reset_and_hazards.md R115) and of `step` (spec/10_state.md R26 to R28). -/

namespace Sys2Proof.Machine

/-- What a host access can do. -/
inductive Accessed (a : Access) (s t : State) : Prop
  /-- Ignored. -/
  | ignored (ht : t = s)
  /-- A read of a value the rules give. -/
  | read (r : Returned) (ht : t = s.giveBack r)
  /-- A read while BUSY (R115). -/
  | freeRead (r : Returned) (hb : s.busy = true) (ht : t = (s.giveBack r).drawn)
  /-- The start event (R26). -/
  | started (v : Word) (ha : a = .regWrite 0 v) (hb : s.busy = false) (ht : t = s.start v)
  /-- A write to CFG (R15). -/
  | scheme (v : Word) (ha : a = .regWrite 1 v) (hb : s.busy = false)
      (ht : t = { s with scheme := Scheme.ofBit (bit v 0) })
  /-- A write to ARG (R16). -/
  | arg (v : Word) (ha : a = .regWrite 3 v) (hb : s.busy = false) (ht : t = { s with arg := v.setWidth 8 })
  /-- A write to IN_LEN (R18). -/
  | inLen (v : Word) (ha : a = .regWrite 5 v) (hb : s.busy = false) (ht : t = { s with inLen := v })
  /-- A write inside IBUF (R23). -/
  | stored (i : Nat) (b : Byte) (ha : a = .ibufWrite i b) (hb : s.busy = false) (hi : i < s.params.ibufBytes)
      (ht : t = s.writeIbuf i b)

/-- A register number and its register. -/
theorem Reg.ofNumber_eq {n : Nat} {r : Reg} (h : Reg.ofNumber n = some r) : n = r.number := by
  unfold Reg.ofNumber at h
  split at h <;> first | (cases h; rfl) | cases h

theorem Reg.ofNumber_number (r : Reg) : Reg.ofNumber r.number = some r := by cases r <;> rfl

theorem Reg.ofNumber_of_ge {n : Nat} (h : 8 ≤ n) : Reg.ofNumber n = none := by
  unfold Reg.ofNumber
  split <;> first | omega | rfl

/-- The inversion lemma of one host access. -/
theorem access_cases (a : Access) (s : State) : Accessed a s (s.access a) := by
  cases a with
  | regWrite n v =>
    show Accessed _ s (s.hostRegWrite n v)
    unfold State.hostRegWrite
    cases hn : Reg.ofNumber n with
    | none => exact .ignored rfl
    | some r =>
      have := Reg.ofNumber_eq hn
      subst this
      cases hb : s.busy with
      | true => exact .ignored (by simp [State.writeReg, hb])
      | false =>
        cases r with
        | cmd => exact .started v rfl hb (by simp [State.writeReg, hb])
        | cfg => exact .scheme v rfl hb (by simp [State.writeReg, hb])
        | arg => exact .arg v rfl hb (by simp [State.writeReg, hb])
        | inLen => exact .inLen v rfl hb (by simp [State.writeReg, hb])
        | status => exact .ignored (by simp [State.writeReg, hb])
        | res => exact .ignored (by simp [State.writeReg, hb])
        | outLen => exact .ignored (by simp [State.writeReg, hb])
        | outBits => exact .ignored (by simp [State.writeReg, hb])
  | regRead n =>
    show Accessed _ s (s.hostRegRead n)
    unfold State.hostRegRead
    split
    · exact .freeRead _ (by tauto) rfl
    · split
      · exact .read _ rfl
      · exact .read _ rfl
  | ibufWrite i b =>
    show Accessed _ s (s.hostIbufWrite i b)
    unfold State.hostIbufWrite
    split
    · exact .ignored rfl
    · split
      · exact .ignored rfl
      · exact .stored i b rfl (by simp_all) (by omega) rfl
  | ibufRead i =>
    show Accessed _ s (s.hostIbufRead i)
    unfold State.hostIbufRead
    split
    · exact .freeRead _ (by assumption) rfl
    · split
      · exact .read _ rfl
      · exact .read _ rfl
  | obufRead j =>
    show Accessed _ s (s.hostObufRead j)
    unfold State.hostObufRead
    split
    · exact .freeRead _ (by assumption) rfl
    · split
      · exact .read _ rfl
      · exact .read _ rfl
  | obufWrite j b => exact .ignored rfl

/-- What one move of the host can do. -/
inductive Moved (s t : State) : Prop
  /-- The host has nothing to do (R106). -/
  | idle (hs : s.script = []) (ht : t = s)
  /-- An access. -/
  | access (a : Access) (rest : List HostLine) (hs : s.script = .access a :: rest)
      (ha : Accessed a { s with script := rest } t)
  /-- `rst` (R110, R111). -/
  | rst (rest : List HostLine) (hs : s.script = .rst :: rest) (ht : t = ({ s with script := rest } : State).assertReset)
  /-- A line is replaced by its expansion (R55). -/
  | expanded (l : HostLine) (rest : List HostLine) (hs : s.script = l :: rest) (ha : ∀ a, l ≠ .access a)
      (hr : l ≠ .rst) (ht : t = { s with script := l.expand s.returned ++ rest })

/-- The inversion lemma of one host move. -/
theorem hostMove_cases (s : State) : Moved s s.hostMove := by
  unfold State.hostMove
  cases hs : s.script with
  | nil => exact .idle hs rfl
  | cons l rest =>
    cases l with
    | access a => exact .access a rest hs (access_cases a _)
    | rst => exact .rst rest hs rfl
    | _ => exact .expanded _ rest hs (by simp) (by simp) rfl

/-- What a step can do. -/
inductive StepKind (s t : State) : Prop
  /-- The completion event of a defined command (R28). -/
  | command (i : Instr) (hb : s.busy = true) (hl : s.latency = 0) (hi : decode s.opw = .ok i) (he : Ended i s t)
  /-- The completion event of an illegal word (R98). -/
  | illegal (e : DecodeError) (hb : s.busy = true) (hl : s.latency = 0) (hd : decode s.opw = .error e)
      (ht : t = s.raise .illegalCmd)
  /-- The host moves while a command is in execution. -/
  | busyHost (n : Nat) (hb : s.busy = true) (hl : s.latency = n + 1) (hm : Moved s.tick t)
  /-- The host moves while the machine is idle. -/
  | idleHost (hb : s.busy = false) (hm : Moved s t)

/-- Every step answers a next state. -/
theorem step_next (s : State) : ∃ t, step s = .next t ∧ StepKind s t := by
  cases hb : s.busy with
  | false =>
    refine ⟨s.hostMove, ?_, .idleHost hb (hostMove_cases s)⟩
    simp [step, nextEvent, hb]
  | true =>
    cases hl : s.latency with
    | succ n =>
      refine ⟨s.tick.hostMove, ?_, .busyHost n hb hl (hostMove_cases _)⟩
      simp [step, nextEvent, hb, hl]
    | zero =>
      have hstep : step s = runCommand s := by simp [step, nextEvent, hb, hl]
      rw [hstep]
      unfold runCommand State.commandWord
      cases hd : decode s.opw with
      | ok i =>
        obtain ⟨t, ht, he⟩ := exec_ended i s
        exact ⟨t, ht, .command i hb hl hd he⟩
      | error e => exact ⟨_, rfl, .illegal e hb hl hd rfl⟩

/-- The inversion lemma of `step`. -/
theorem step_cases {s t : State} (h : step s = .next t) : StepKind s t := by
  obtain ⟨u, hu, hs⟩ := step_next s
  rw [h] at hu
  cases hu
  exact hs

/-- One step of a run of any machine. -/
theorem run_succ (M : Host.Core) {k : Nat} {s t : M.State} (h : M.step s = .next t) :
    M.run (k + 1) s = M.run k t := by
  rw [Host.Core.run, h]

/-- A safe run, one step at a time. -/
theorem SafeRun.zero (s : State) : SafeRun 0 s s := rfl

theorem SafeRun.succ {k : Nat} {s t u : State} (h : step s = .next t) (hr : SafeRun k t u) : SafeRun (k + 1) s u :=
  (run_succ core (s := s) (t := t) h).trans hr

end Sys2Proof.Machine
end

