-- ==== Sys2Proof/Tests/Slice0.lean ====
section
/-! SUPPORT. Tests. Expected values are the spec's own: spec/30_encoding.md R46 for words, spec/95_test_vectors.md for
bytes. Then, for every statement with hypotheses, witnesses that meet all of them, one for each clause. -/

namespace Sys2Proof.Tests

open Machine

/-! ### Helpers -/

/-- An idle machine after reset with the given highest buffer indices, the input loaded and IN_LEN set. -/
def loaded (ibufTop obufTop : Fin 16777216) (bytes : List Byte) : State :=
  { State.resetWith { ibufTop := ibufTop, obufTop := obufTop } with
    ibuf := bytes.zipIdx.map fun x => (x.2, x.1)
    inLen := BitVec.ofNat 32 bytes.length }

/-- An idle machine with 16-byte buffers and IN_LEN as given, nothing loaded. -/
def sized (ibufTop obufTop : Fin 16777216) (n : Word) : State :=
  { State.resetWith { ibufTop := ibufTop, obufTop := obufTop } with inLen := n }

/-- The command word `w` in execution, with latency left. -/
def running (s : State) (w : Word) (latency : Nat) : State := { s.latchCommand w with latency := latency }

/-- A property of the state that an outcome goes on with. -/
def goesOn (o : Host.Outcome State Fault Refusal) (p : State → Bool) : Bool :=
  match o with
  | .next t => p t
  | .fault _ => false
  | .refused _ => false

/-- `OBUF[0 .. n-1]`. -/
def output (t : State) (n : Nat) : List Byte := (List.range n).map t.obufByte

/-! ### Well-formedness: an ill-formed word for each check -/

theorem test_reserved_bit_is_ill_formed :
    CommandWord.reservedClear 0x00000009#32 = false ∧ CommandWord.wellFormed 0x00000009#32 = false := by decide

theorem test_top_reserved_bit_is_ill_formed :
    CommandWord.reservedClear 0x80000005#32 = false ∧ CommandWord.wellFormed 0x80000005#32 = false := by decide

theorem test_operation_zero_is_ill_formed :
    CommandWord.opDefined 0x00000000#32 = false ∧ CommandWord.wellFormed 0x00000000#32 = false := by decide

theorem test_unsorted_memory_is_ill_formed : ¬Memory.wf [(3, 0#8), (2, 0#8)] ∧ ¬Memory.wf [(3, 0#8), (3, 1#8)] := by decide

theorem test_byte_outside_the_memory_is_ill_formed : ¬Memory.inside [(16, 0#8)] 16 := by decide

/-! ### Decoding: every command's word, bit by bit from R46 (RSVD 29 bits, OP 3 bits) -/

theorem test_decode_encn : decode 0b00000000000000000000000000000_001#32 = .ok .encn := rfl
theorem test_decode_decc : decode 0b00000000000000000000000000000_010#32 = .ok .decc := rfl
theorem test_decode_encb : decode 0b00000000000000000000000000000_011#32 = .ok .encb := rfl
theorem test_decode_decb : decode 0b00000000000000000000000000000_100#32 = .ok .decb := rfl
theorem test_decode_conv : decode 0b00000000000000000000000000000_101#32 = .ok .conv := rfl
theorem test_decode_penc : decode 0b00000000000000000000000000000_110#32 = .ok .penc := rfl
theorem test_decode_pdec : decode 0b00000000000000000000000000000_111#32 = .ok .pdec := rfl
theorem test_decode_zero : decode 0b00000000000000000000000000000_000#32 = .error .operationZero := rfl
theorem test_decode_reserved : decode 0b00000000000000000000000000001_101#32 = .error .reservedBitsSet := rfl

/-- The host's door: the seven rows, an illegal word and a value wider than a command word. -/
theorem test_decode_table_words :
    [1, 2, 3, 4, 5, 6, 7, 0, 8, 0xFFFFFFFF].map (decodeTableWord 32) =
      [some .encn, some .decc, some .encb, some .decb, some .conv, some .penc, some .pdec, none, none, none] ∧
    decodeTableWord 40 0x0100000001 = none := by decide

/-- No two rows of the table match one word. -/
theorem test_table_rows_do_not_overlap :
    List.Pairwise (fun r q : OpcodeRow => r.pattern &&& q.mask ≠ q.pattern) opcodeTable := by decide

/-! ### Commands: spec/95_test_vectors.md sections 2.1 to 2.7 -/

theorem test_encn_ignores_high_bits :
    goesOn (exec .encn { State.reset with arg := 0xFB#8 }) (fun t => t.res == 0x55#8 && t.statusWord == 0x02#32) = true := by
  decide

theorem test_decc_corrects_one_bit :
    goesOn (exec .decc { State.reset with arg := 0x45#8 }) (fun t => t.res == 0x0B#8 && t.statusWord == 0x02#32) = true := by
  decide

theorem test_decc_double_error_and_reserved_bit :
    (decCodeword 0x2E#8, decCodeword 0x13#8, decCodeword 0xFF#8, decCodeword 0xB4#8) = (0x4#4, 0x6#4, 0xF#4, 0x7#4) := by
  decide

theorem test_encb_two_bytes :
    goesOn (exec .encb (loaded 15 15 [0x12, 0x34])) (fun t =>
      output t 4 == [0x07, 0x19, 0x1E, 0x2A] && t.outLen == 4#32 && t.outBits == 32#32 && t.statusWord == 0x02#32) = true := by
  decide

theorem test_encb_nine_bytes_do_not_fit :
    goesOn (exec .encb (sized 15 15 9#32)) (fun t => t.statusWord == 0x22#32 && t.outLen == 0#32) = true := by decide

set_option maxRecDepth 20000 in
theorem test_decb_one_flip_in_each_byte :
    goesOn (exec .decb (loaded 15 15 [0x76, 0x78, 0xD2, 0x67])) (fun t =>
      output t 2 == [0xDE, 0xAD] && t.outLen == 2#32 && t.outBits == 16#32 && t.statusWord == 0x02#32) = true := by decide

set_option maxRecDepth 20000 in
theorem test_decb_error_order :
    (goesOn (exec .decb (sized 15 15 3#32)) (fun t => t.statusWord == 0x12#32) &&
      goesOn (exec .decb (sized 15 15 17#32)) (fun t => t.statusWord == 0x22#32) &&
      goesOn (exec .decb (sized 31 3 9#32)) (fun t => t.statusWord == 0x12#32) &&
      goesOn (exec .decb (sized 31 3 10#32)) (fun t => t.statusWord == 0x22#32)) = true := by decide

set_option maxRecDepth 20000 in
theorem test_conv_two_bytes :
    goesOn (exec .conv (loaded 15 15 [0x01, 0x80])) (fun t =>
      output t 5 == [0x00, 0x03, 0x5C, 0x00, 0x00] && t.outLen == 5#32 && t.outBits == 36#32 && t.sr == 0b000#3) = true := by
  decide

set_option maxRecDepth 20000 in
theorem test_conv_last_bit_stays_in_sr :
    goesOn (exec .conv (loaded 15 15 [0xA5])) (fun t =>
      output t 3 == [0xE2, 0xF8, 0xB0] && t.outBits == 20#32 && t.sr == 0b100#3 && t.statusWord == 0x02#32) = true := by decide

set_option maxRecDepth 20000 in
theorem test_penc_both_schemes :
    (goesOn (exec .penc (loaded 15 15 [0xA5])) (fun t => output t 2 == [0x52, 0x2D] && t.outLen == 2#32) &&
      goesOn (exec .penc { loaded 15 15 [0xA5] with scheme := .conv }) (fun t =>
        output t 3 == [0xE2, 0xF8, 0xB0] && t.outLen == 3#32)) = true := by decide

theorem test_pdec_both_schemes :
    (goesOn (exec .pdec (loaded 15 15 [0x52, 0x2D])) (fun t => output t 1 == [0xA5] && t.statusWord == 0x02#32) &&
      goesOn (exec .pdec { sized 15 15 0xFFFFFFFF#32 with scheme := .conv }) (fun t =>
        t.statusWord == 0x42#32 && t.outLen == 0#32)) = true := by decide

theorem test_illegal_word_completes_with_its_code :
    (goesOn (step (running State.reset 0x00000000#32 0)) (fun t => t.statusWord == 0x32#32) &&
      goesOn (step (running State.reset 0x00000009#32 0)) (fun t => t.statusWord == 0x32#32 && t.res == 0#8)) = true := by
  decide

/-- The first step after reset with a table word in place runs that command: CONV on the empty input writes one byte. -/
theorem test_fetch_word_runs_next :
    goesOn (step (State.reset.withFetchWord 32 5)) (fun t =>
      output t 1 == [0x00] && t.outLen == 1#32 && t.outBits == 4#32 && t.statusWord == 0x02#32) = true := by decide

/-! ### Registers and the host: spec/95_test_vectors.md section 2.8 -/

theorem test_status_while_busy : (running State.reset 3#32 0).statusWord = 0x00000001#32 := by decide

theorem test_register_writes_drop_reserved_bits :
    ((State.reset.access (.regWrite 1 0xFFFFFFFE#32)).regWord .cfg, (State.reset.access (.regWrite 1 0xFFFFFFFF#32)).regWord .cfg,
      (State.reset.access (.regWrite 3 0x12345678#32)).regWord .arg, (State.reset.access (.regWrite 5 0xFFFFFFFF#32)).regWord .inLen) =
    (0x00000000#32, 0x00000001#32, 0x00000078#32, 0xFFFFFFFF#32) := by decide

theorem test_command_write_while_busy_is_ignored :
    (running State.reset 3#32 1).access (.regWrite 0 5#32) = running State.reset 3#32 1 := by decide

theorem test_flip_inverts_the_bit :
    HostLine.expand [.byte 0x66#8] (.flipBack 0 4) = [.access (.ibufWrite 0 0x76#8)] := by decide

/-- Entries of the table of R83 in spec/95_test_vectors.md section 2.5. -/
theorem test_conv_table_entries :
    (convTable 0x01#8, convTable 0x80#8, convTable 0xA5#8, convTable 0xFF#8) = (0x0003#16, 0xEC00#16, 0xE2F8#16, 0xDAAA#16) := by
  decide

theorem test_conv_step_golden_vector :
    (convStep 0b000#3 1#1, convStep 0b001#3 0#1, convStep 0b010#3 0#1) =
      ((0b001#3, 1#1, 1#1), (0b010#3, 1#1, 0#1), (0b100#3, 1#1, 1#1)) := by decide

/-! ### Witnesses: every hypothesis of every statement can be met -/

/-- Reset lands while idle, and while a command has latency left. -/
theorem witness_AssertedResetAbandonsEverything :
    (∃ (s : State) (rest : List HostLine), s.script = .rst :: rest ∧ s.busy = false) ∧
    ∃ (s : State) (rest : List HostLine), s.script = .rst :: rest ∧ s.busy = true ∧ 0 < s.latency :=
  ⟨⟨{ State.reset with script := [.rst] }, [], rfl, rfl⟩,
    ⟨{ running State.reset 5#32 1 with script := [.rst] }, [], rfl, rfl, by decide⟩⟩

theorem witness_IllegalWordsEndInIllegalCmd :
    (∃ s : State, s.busy = true ∧ s.latency = 0 ∧ s.opw.extractLsb' 0 3 = 0#3 ∧ s.opw.extractLsb' 3 29 = 0#29) ∧
    ∃ s : State, s.busy = true ∧ s.latency = 0 ∧ s.opw.extractLsb' 0 3 ≠ 0#3 ∧ s.opw.extractLsb' 3 29 ≠ 0#29 :=
  ⟨⟨running State.reset 0#32 0, by decide⟩, ⟨running State.reset 0x80000005#32 0, by decide⟩⟩

theorem witness_StepRunsTheLatchedCommand :
    ∃ (s : State) (i : Instr), s.busy = true ∧ s.latency = 0 ∧ decode s.opw = .ok i :=
  ⟨running State.reset 7#32 0, .pdec, rfl, rfl, rfl⟩

theorem witness_StepPerformsTheHostsNextLine :
    (∃ (s : State) (l : HostLine) (rest : List HostLine), s.busy = false ∧ s.script = l :: rest) ∧
    (∃ (s : State) (l : HostLine) (rest : List HostLine) (n : Nat), s.busy = true ∧ s.latency = n + 1 ∧ s.script = l :: rest) ∧
    (∃ s : State, s.busy = false ∧ s.script = []) ∧
    ∃ (s : State) (n : Nat), s.busy = true ∧ s.latency = n + 1 ∧ s.script = [] :=
  ⟨⟨{ State.reset with script := [.wait] }, .wait, [], rfl, rfl⟩,
    ⟨{ running State.reset 5#32 1 with script := [.wait] }, .wait, [], 0, rfl, rfl, rfl⟩,
    ⟨State.reset, rfl, rfl⟩, ⟨running State.reset 5#32 1, 0, rfl, rfl, rfl⟩⟩

theorem witness_CommandWriteStartsTheCommand :
    ∃ (s : State) (w : Word) (rest : List HostLine), s.busy = false ∧ s.script = .access (.regWrite 0 w) :: rest :=
  ⟨{ State.reset with script := [.access (.regWrite 0 3#32)] }, 3#32, [], rfl, rfl⟩

theorem witness_StartedCommandCompletes : ∃ s : State, s.busy = true ∧ 0 < s.latency ∧ HostLine.rst ∉ s.script :=
  ⟨{ running State.reset 5#32 2 with script := [.wait] }, by decide⟩

theorem witness_SyndromeNamesTheFlippedPosition : ∃ p : BitVec 3, p ≠ 0#3 ∧ p.toNat - 1 = 6 := ⟨7#3, by decide⟩

/-- A two-bit error is neither no error nor a single flip. -/
theorem witness_BlockCodeCorrectsOneErrorOnly :
    (∃ e : BitVec 7, e ≠ 0#7 ∧ ∀ k, k < 7 → e ≠ 1#7 <<< k) ∧ ∃ n m : Nibble, n ≠ m :=
  ⟨⟨0b0000011#7, by decide⟩, ⟨0#4, 1#4, by decide⟩⟩

/-- The exact fit, one byte too many for IBUF, one byte too many for OBUF. -/
theorem witness_EncbEncodesTheBuffer :
    (∃ s : State, s.inLen.toNat = s.params.ibufBytes ∧ 2 * s.inLen.toNat = s.params.obufBytes) ∧
    (∃ s : State, s.inLen.toNat = s.params.ibufBytes + 1 ∧ 2 * s.inLen.toNat ≤ s.params.obufBytes) ∧
    ∃ s : State, s.inLen.toNat ≤ s.params.ibufBytes ∧ 2 * s.inLen.toNat = s.params.obufBytes + 1 :=
  ⟨⟨sized 7 15 8#32, by decide⟩, ⟨sized 7 31 9#32, by decide⟩, ⟨sized 7 14 8#32, by decide⟩⟩

/-- The exact fit, the longest odd length, one byte too many for IBUF, one byte too many for OBUF. -/
theorem witness_DecbDecodesTheBuffer :
    (∃ s : State, s.inLen.toNat = s.params.ibufBytes ∧ s.inLen.toNat % 2 = 0 ∧ s.inLen.toNat / 2 = s.params.obufBytes) ∧
    (∃ s : State, s.inLen.toNat = s.params.ibufBytes ∧ s.inLen.toNat % 2 = 1) ∧
    (∃ s : State, s.inLen.toNat = s.params.ibufBytes + 1) ∧
    ∃ s : State, s.inLen.toNat ≤ s.params.ibufBytes ∧ s.inLen.toNat % 2 = 0 ∧ s.inLen.toNat / 2 = s.params.obufBytes + 1 :=
  ⟨⟨sized 15 7 16#32, by decide⟩, ⟨sized 14 7 15#32, by decide⟩, ⟨sized 15 7 17#32, by decide⟩,
    ⟨sized 15 6 16#32, by decide⟩⟩

theorem witness_ConvEncodesTheBuffer :
    (∃ s : State, s.inLen.toNat = s.params.ibufBytes ∧ 2 * s.inLen.toNat + 1 = s.params.obufBytes) ∧
    (∃ s : State, s.inLen.toNat = 0 ∧ 2 * s.inLen.toNat + 1 = s.params.obufBytes) ∧
    (∃ s : State, s.inLen.toNat = s.params.ibufBytes + 1 ∧ 2 * s.inLen.toNat + 1 ≤ s.params.obufBytes) ∧
    ∃ s : State, s.inLen.toNat ≤ s.params.ibufBytes ∧ 2 * s.inLen.toNat + 1 = s.params.obufBytes + 1 :=
  ⟨⟨sized 6 14 7#32, by decide⟩, ⟨sized 0 0 0#32, by decide⟩, ⟨sized 6 31 8#32, by decide⟩, ⟨sized 15 15 8#32, by decide⟩⟩

theorem witness_PencRunsTheSelectedScheme :
    (∃ s : State, s.scheme = .block ∧ s.inLen.toNat = s.params.ibufBytes ∧ 2 * s.inLen.toNat = s.params.obufBytes) ∧
    ∃ s : State, s.scheme = .conv ∧ s.inLen.toNat = s.params.ibufBytes ∧ 2 * s.inLen.toNat + 1 = s.params.obufBytes :=
  ⟨⟨sized 7 15 8#32, by decide⟩, ⟨{ sized 6 14 7#32 with scheme := .conv }, by decide⟩⟩

theorem witness_PdecRunsTheBlockSchemeOnly :
    (∃ s : State, s.scheme = .block ∧ s.inLen.toNat = s.params.ibufBytes ∧ s.inLen.toNat % 2 = 0 ∧
      s.inLen.toNat / 2 = s.params.obufBytes) ∧
    ∃ s : State, s.scheme = .conv ∧ s.inLen.toNat > s.params.ibufBytes :=
  ⟨⟨sized 15 7 16#32, by decide⟩, ⟨{ sized 15 7 17#32 with scheme := .conv }, by decide⟩⟩

set_option maxRecDepth 20000 in
theorem witness_ConvIsLinear :
    ∃ x y z tx ty tz : State, x.inLen = z.inLen ∧ y.inLen = z.inLen ∧
      (∀ i, i < z.inLen.toNat → z.ibufByte i = x.ibufByte i ^^^ y.ibufByte i) ∧
      exec .conv x = .next tx ∧ exec .conv y = .next ty ∧ exec .conv z = .next tz ∧
      tx.err = .none ∧ ty.err = .none ∧ tz.err = .none ∧ 0 < tz.outLen.toNat :=
  ⟨loaded 15 15 [0x80], loaded 15 15 [0x01], loaded 15 15 [0x81], _, _, _, rfl, rfl, by decide, rfl, rfl, rfl, by decide,
    by decide, by decide, by decide⟩

/-- The empty input, and a first and a later byte of two. -/
theorem witness_ConvHasAClosedFormPerByte :
    (∃ s t : State, exec .conv s = .next t ∧ t.err = .none ∧ s.inLen.toNat = 0) ∧
    ∃ s t : State, exec .conv s = .next t ∧ t.err = .none ∧ s.inLen.toNat = 2 :=
  ⟨⟨loaded 15 15 [], _, rfl, by decide, by decide⟩, ⟨loaded 15 15 [0x01, 0x80], _, rfl, by decide, by decide⟩⟩

/-- The example of R69: `42 2C` is `52 2D` with one bit flipped in each byte. -/
theorem witness_BlockRoundTripSurvivesSingleErrors :
    ∃ s t u v : State, exec .encb s = .next t ∧ t.err = .none ∧ u.inLen = t.outLen ∧
      u.inLen.toNat ≤ u.params.ibufBytes ∧ s.inLen.toNat ≤ u.params.obufBytes ∧
      (∀ j, j < t.outLen.toNat → AtMostOneFlip (t.obufByte j) (u.ibufByte j)) ∧ exec .decb u = .next v ∧
      0 < s.inLen.toNat :=
  ⟨loaded 15 15 [0xA5], _, loaded 15 15 [0x42, 0x2C], _, rfl, by decide, by decide, by decide, by decide,
    fun j hj => by
      have h2 : j < 2 := hj
      interval_cases j
      · exact .inr ⟨4, by decide, by decide⟩
      · exact .inr ⟨0, by decide, by decide⟩,
    rfl, by decide⟩

theorem witness_UnwrittenInputIsEncodedAsItStands :
    ∃ (p : Params) (n : Word), n.toNat ≤ p.ibufBytes ∧ 2 * n.toNat = p.obufBytes ∧ 0 < n.toNat :=
  ⟨Config.params, 8#32, by decide⟩

/-- An odd length whose output would not fit either: INVALID_LENGTH comes first. -/
theorem witness_CommandReportsTheFirstError :
    (∃ s : State, s.busy = true ∧ s.latency = 0 ∧ reportedError s = .invalidLength) ∧
    ∃ s t : State, s.busy = true ∧ s.latency = 0 ∧ step s = .next t ∧ t.err ≠ .none :=
  ⟨⟨running (sized 31 3 9#32) 4#32 0, by decide⟩, ⟨running (sized 31 3 9#32) 4#32 0, _, rfl, rfl, rfl, by decide⟩⟩

theorem witness_CommandsLeaveTheirOperandsAlone : ∃ (i : Instr) (s t : State), exec i s = .next t :=
  ⟨.conv, loaded 15 15 [0xA5], _, rfl⟩

theorem witness_EachResultRegisterHasItsWriters :
    (∃ (i : Instr) (s t : State), exec i s = .next t ∧ i ≠ .encn ∧ i ≠ .decc) ∧
    (∃ (i : Instr) (s t : State), exec i s = .next t ∧ i ≠ .conv ∧ ¬(i = .penc ∧ s.scheme = .conv)) ∧
    ∃ (i : Instr) (s t : State), exec i s = .next t ∧ (i = .encn ∨ i = .decc) :=
  ⟨⟨.conv, loaded 15 15 [0xA5], _, rfl, by decide, by decide⟩, ⟨.penc, loaded 15 15 [0xA5], _, rfl, by decide, by decide⟩,
    ⟨.encn, State.reset, _, rfl, .inl rfl⟩⟩

/-- The first byte beyond the result, after a success and after an error; any byte, after ENCN. -/
theorem witness_OutputBytesBeyondTheResultAreKept :
    (∃ (i : Instr) (s t : State) (j : Nat), exec i s = .next t ∧ 0 < j ∧ t.outLen.toNat = j) ∧
    (∃ (i : Instr) (s t : State), exec i s = .next t ∧ t.err ≠ .none ∧ t.outLen.toNat ≤ 0) ∧
    ∃ (i : Instr) (s t : State), exec i s = .next t ∧ i = .encn :=
  ⟨⟨.encb, loaded 15 15 [0xA5], _, 2, rfl, by decide, by decide⟩,
    ⟨.decb, sized 15 15 3#32, _, rfl, by decide, by decide⟩, ⟨.encn, State.reset, _, rfl, rfl⟩⟩

theorem witness_SchemeChangesOnlyWhileIdle :
    (∃ s t : State, step s = .next t ∧ t.scheme ≠ s.scheme ∧ s.script = [.access (.regWrite 1 1#32)]) ∧
    ∃ s t : State, step s = .next t ∧ t.scheme ≠ s.scheme ∧ s.script = [.rst] :=
  ⟨⟨{ State.reset with script := [.access (.regWrite 1 1#32)] }, _, rfl, by decide, rfl⟩,
    ⟨{ State.reset with scheme := .conv, script := [.rst] }, _, rfl, by decide, rfl⟩⟩

theorem witness_InputBytesChangeOnlyByHostWrites :
    ∃ (s t : State) (i : Nat), step s = .next t ∧ t.ibufByte i ≠ s.ibufByte i :=
  ⟨{ loaded 15 15 [0xA5] with script := [.access (.ibufWrite 0 0x5A#8)] }, _, 0, rfl, by decide⟩

theorem witness_IdleRegisterReads : ∃ (s : State) (n : Nat), s.busy = false ∧ n = 8 := ⟨State.reset, 8, rfl, rfl⟩

theorem witness_IdleRegisterWrites : ∃ (s : State) (n : Nat), s.busy = false ∧ 8 ≤ n := ⟨State.reset, 8, rfl, by decide⟩

/-- The last index of IBUF and the first one outside it. -/
theorem witness_IdleBufferAccesses :
    (∃ (s : State) (i : Nat), s.busy = false ∧ i + 1 = s.params.ibufBytes) ∧
    ∃ (s : State) (i j : Nat), s.busy = false ∧ i = s.params.ibufBytes ∧ j = s.params.obufBytes :=
  ⟨⟨State.reset, 15, rfl, by decide⟩, ⟨State.reset, 16, 16, rfl, by decide, by decide⟩⟩

theorem witness_BusyLocksTheHostOut :
    ∃ (s : State) (n k m : Nat), s.busy = true ∧ s.done = false ∧ s.err = .none ∧ n = 7 ∧ n < 8 ∧ n ≠ 2 ∧
      k + 1 = s.params.ibufBytes ∧ m + 1 = s.params.obufBytes :=
  ⟨running State.reset 5#32 1, 7, 15, 15, by decide⟩

theorem witness_WaitEndsWithAnIdleMachine :
    (∃ (s : State) (rest : List HostLine), s.script = .wait :: rest ∧ s.busy = false) ∧
    ∃ (s : State) (rest : List HostLine), s.script = .wait :: rest ∧ s.busy = true ∧ 0 < s.latency :=
  ⟨⟨{ State.reset with script := [.wait] }, [], rfl, rfl⟩,
    ⟨{ running State.reset 5#32 3 with script := [.wait] }, [], rfl, rfl, by decide⟩⟩

theorem witness_TransactionsDetermineTheirLines : ∃ (a : Access) (x : Transaction), a.transaction = some x :=
  ⟨.ibufWrite 0 0xDE#8, _, rfl⟩

/-- A one-byte input and an ARG, with the command word `w` in execution right after reset. -/
def freshRun (w : Word) : State := running { loaded 15 15 [0xA5] with arg := 0x45#8 } w 0

/-- The same inputs on another instance, which has run commands before. -/
def usedRun (w : Word) : State :=
  { freshRun w with
    params := { ibufTop := 15, obufTop := 15, serial := 1 }
    sr := 0b100#3, acc := 0xB0#8, nb := 20#32, res := 0x55#8, obuf := [(0, 0xE2#8)] }

theorem freshRun_usedRun_sameInputs (w : Word) : SameInputs (freshRun w) (usedRun w) :=
  ⟨rfl, rfl, rfl, rfl, rfl, rfl, fun i hi _ => by
    have h1 : i < 1 := hi
    obtain rfl : i = 0 := by omega
    rfl⟩

set_option maxRecDepth 20000 in
/-- Two machines that differ in serial number, SR, RES and OBUF but not in their inputs: CONV, ENCN and DECC. -/
theorem witness_ResultsDependOnTheInputsOnly :
    (∃ s u t v : State, SameInputs s u ∧ s.busy = true ∧ u.busy = true ∧ s.latency = 0 ∧ u.latency = 0 ∧
      step s = .next t ∧ step u = .next v ∧ s.opw = encode .conv ∧ s.sr ≠ u.sr ∧ s.obuf ≠ u.obuf ∧ 0 < t.outLen.toNat) ∧
    (∃ s u t v : State, SameInputs s u ∧ s.busy = true ∧ u.busy = true ∧ s.latency = 0 ∧ u.latency = 0 ∧
      step s = .next t ∧ step u = .next v ∧ s.opw = encode .encn ∧ s.res ≠ u.res) ∧
    ∃ s u t v : State, SameInputs s u ∧ s.busy = true ∧ u.busy = true ∧ s.latency = 0 ∧ u.latency = 0 ∧
      step s = .next t ∧ step u = .next v ∧ s.opw = encode .decc ∧ s.res ≠ u.res :=
  ⟨⟨freshRun 5#32, usedRun 5#32, _, _, freshRun_usedRun_sameInputs _, rfl, rfl, rfl, rfl, rfl, rfl, rfl, by decide, by decide,
      by decide⟩,
    ⟨freshRun 1#32, usedRun 1#32, _, _, freshRun_usedRun_sameInputs _, rfl, rfl, rfl, rfl, rfl, rfl, rfl, by decide⟩,
    ⟨freshRun 2#32, usedRun 2#32, _, _, freshRun_usedRun_sameInputs _, rfl, rfl, rfl, rfl, rfl, rfl, rfl, by decide⟩⟩

/-- A machine in the middle of a command, with an earlier result in OBUF. -/
theorem witness_EveryStepKeepsTheInvariant : ∃ s t : State, s.Inv ∧ step s = .next t ∧ s.busy = true ∧ s.obuf ≠ [] :=
  ⟨{ running (loaded 15 15 [0xA5]) 5#32 0 with obuf := [(0, 0x52#8), (1, 0x2D#8)], outLen := 2#32, outBits := 16#32 }, _,
    { ibufWf := by decide
      obufWf := by decide
      ibufInside := by decide
      obufInside := by decide
      busyStatus := by decide
      idleLatency := by decide
      errorOutput := by decide
      resTop := by decide
      outLenFits := by decide
      outBitsFit := by decide
      resultWritten := by decide
      srTail := by decide
      nbWhole := by decide
      accTail := by decide },
    rfl, rfl, by decide⟩

theorem witness_InstancesAreIndependent :
    ∃ (sys sys' : List State) (k : Nat), stepInstance sys k = .next sys' ∧ k < sys.length ∧ 1 < sys.length :=
  ⟨[State.reset, running State.reset 5#32 0], _, 1, rfl, by decide, by decide⟩

end Sys2Proof.Tests
end

/-! ## Noninterference (R29)

Two starts with `SameInputs` meet the same checks, so they end in the same error or both leave what R68, R69 or R81
says of equal input bytes. The statements about an error, about what a block or convolutional command leaves, and about
`exec` are therefore each proved once for two runs and then put together along the decoder's cases. -/

namespace Sys2Proof.Machine

/-! ### The checks of a buffer command, by the error they report -/

theorem blockEncodeError_eq_none {s : State} :
    blockEncodeError s = .none ↔ s.inLen.toNat ≤ s.params.ibufBytes ∧ 2 * s.inLen.toNat ≤ s.params.obufBytes := by
  unfold blockEncodeError
  split_ifs <;> simp <;> omega

theorem blockDecodeError_eq_none {s : State} :
    blockDecodeError s = .none ↔
      s.inLen.toNat ≤ s.params.ibufBytes ∧ s.inLen.toNat % 2 = 0 ∧ s.inLen.toNat / 2 ≤ s.params.obufBytes := by
  unfold blockDecodeError
  split_ifs <;> simp <;> omega

theorem convEncodeError_eq_none {s : State} :
    convEncodeError s = .none ↔ s.inLen.toNat ≤ s.params.ibufBytes ∧ 2 * s.inLen.toNat + 1 ≤ s.params.obufBytes := by
  unfold convEncodeError
  split_ifs <;> simp <;> omega

/-- A block encode whose checks find an error completes with that error (R68). -/
theorem blockEncode_of_error {s : State} (h : blockEncodeError s ≠ .none) :
    blockEncode s = s.raise (blockEncodeError s) := by
  obtain ⟨hbad, hraise⟩ | ⟨hi, ho, -⟩ := blockEncode_cases s
  · have herr : blockEncodeError s = .sizeError := by
      unfold blockEncodeError
      split_ifs
      · rfl
      · rfl
      · omega
    rw [hraise, herr]
  · exact absurd (blockEncodeError_eq_none.mpr ⟨hi, ho⟩) h

/-- A block decode whose checks find an error completes with the first that applies (R69, R101). -/
theorem blockDecode_of_error {s : State} (h : blockDecodeError s ≠ .none) :
    blockDecode s = s.raise (blockDecodeError s) := by
  obtain ⟨hi, hraise⟩ | ⟨hi, hodd, hraise⟩ | ⟨hi, heven, ho, hraise⟩ | ⟨hi, heven, ho, -⟩ := blockDecode_cases s
  · rw [hraise, blockDecodeError, if_pos hi]
  · rw [hraise, blockDecodeError, if_neg (by omega), if_pos hodd]
  · rw [hraise, blockDecodeError, if_neg (by omega), if_neg (by omega), if_pos ho]
  · exact absurd (blockDecodeError_eq_none.mpr ⟨hi, heven, ho⟩) h

/-- A convolutional encode whose checks find an error completes with that error (R81). -/
theorem convEncode_of_error {s : State} (h : convEncodeError s ≠ .none) :
    convEncode s = s.raise (convEncodeError s) := by
  obtain ⟨hbad, hraise⟩ | ⟨hi, ho, -⟩ := convEncode_cases s
  · have herr : convEncodeError s = .sizeError := by
      unfold convEncodeError
      split_ifs
      · rfl
      · rfl
      · omega
    rw [hraise, herr]
  · exact absurd (convEncodeError_eq_none.mpr ⟨hi, ho⟩) h

/-! ### A successful command reports no error -/

theorem BlockFrame.err {s t : State} (h : BlockFrame s t) : t.err = .none := by
  unfold BlockFrame at h
  rw [h]

theorem ConvFrame.err {s t : State} (h : ConvFrame s t) : t.err = .none := by
  unfold ConvFrame at h
  rw [h]

/-! ### What two starts with the same inputs share -/

section SameInputs

variable {s u : State}

theorem SameInputs.inLen (h : SameInputs s u) : s.inLen = u.inLen := by
  obtain ⟨-, -, -, -, -, hlen, -⟩ := h
  exact hlen

theorem SameInputs.scheme (h : SameInputs s u) : s.scheme = u.scheme := by
  obtain ⟨-, -, -, hscheme, -⟩ := h
  exact hscheme

theorem SameInputs.opw (h : SameInputs s u) : s.opw = u.opw := by
  obtain ⟨-, -, hopw, -⟩ := h
  exact hopw

theorem SameInputs.arg (h : SameInputs s u) : s.arg = u.arg := by
  obtain ⟨-, -, -, -, harg, -⟩ := h
  exact harg

/-- Every input byte that lies in IBUF is the same. -/
theorem SameInputs.ibufByte (h : SameInputs s u) (hfit : s.inLen.toNat ≤ s.params.ibufBytes) {i : Nat}
    (hi : i < s.inLen.toNat) : s.ibufByte i = u.ibufByte i := by
  obtain ⟨-, -, -, -, -, -, hbytes⟩ := h
  exact hbytes i hi (hi.trans_le hfit)

theorem SameInputs.blockEncodeError_eq (h : SameInputs s u) : blockEncodeError s = blockEncodeError u := by
  obtain ⟨hib, hob, -, -, -, hlen, -⟩ := h
  rw [blockEncodeError, blockEncodeError, hib, hob, hlen]

theorem SameInputs.blockDecodeError_eq (h : SameInputs s u) : blockDecodeError s = blockDecodeError u := by
  obtain ⟨hib, hob, -, -, -, hlen, -⟩ := h
  rw [blockDecodeError, blockDecodeError, hib, hob, hlen]

theorem SameInputs.convEncodeError_eq (h : SameInputs s u) : convEncodeError s = convEncodeError u := by
  obtain ⟨hib, hob, -, -, -, hlen, -⟩ := h
  rw [convEncodeError, convEncodeError, hib, hob, hlen]

/-- The stream of R76 is a function of the input bytes. -/
theorem SameInputs.convStreamBit_eq (h : SameInputs s u) (hfit : s.inLen.toNat ≤ s.params.ibufBytes) (k : Nat) :
    convStreamBit s k = convStreamBit u k := by
  have hinput : ∀ T, convInputBit s T = convInputBit u T := by
    intro T
    unfold convInputBit
    rw [← h.inLen]
    split
    · rw [h.ibufByte hfit (by omega)]
    · rfl
  simp only [convStreamBit, convPastBit, hinput]

end SameInputs

/-! ### The result of a buffer command -/

/-- Two ends of a buffer command with the same result (R112, R114): what `SameResult` asks of every word but ENCN's and
DECC's. -/
def SameOutput (t v : State) : Prop :=
  t.err = v.err ∧ t.outLen = v.outLen ∧ t.outBits = v.outBits ∧ ∀ j, j < t.outLen.toNat → t.obufByte j = v.obufByte j

/-- For a word that is not ENCN's or DECC's, the same result is the same output. -/
theorem SameOutput.sameResult {t v : State} (h : SameOutput t v) {w : Word} (hw : ¬(w = encode .encn ∨ w = encode .decc)) :
    SameResult w t v := by
  obtain ⟨herr, hout⟩ := h
  exact ⟨herr, by rwa [if_neg hw]⟩

/-- For ENCN's and DECC's word, the same result is the same error code and RES. -/
theorem sameResult_of_res {t v : State} (herr : t.err = v.err) (hres : t.res = v.res) {w : Word}
    (hw : w = encode .encn ∨ w = encode .decc) : SameResult w t v :=
  ⟨herr, by rwa [if_pos hw]⟩

/-- An error completion leaves no output byte (R95, R102), so it has the same result on every machine. -/
theorem raise_sameOutput (s u : State) (e : ErrCode) : SameOutput (s.raise e) (u.raise e) :=
  ⟨rfl, rfl, rfl, fun _ hj => absurd hj (by simp)⟩

/-- Two runs whose checks agree end in the same error; only the runs without one are left to compare. -/
theorem sameOutput_of_checks {s u t v : State} {e e' : ErrCode} (he : e = e') (ht : e ≠ .none → t = s.raise e)
    (hv : e' ≠ .none → v = u.raise e') (hok : e = .none → e' = .none → SameOutput t v) : SameOutput t v := by
  subst he
  by_cases hnone : e = .none
  · exact hok hnone hnone
  · rw [ht hnone, hv hnone]
    exact raise_sameOutput s u e

section Ends

variable {s u t v : State}

theorem BlockEncoded.sameOutput (h : SameInputs s u) (hfit : s.inLen.toNat ≤ s.params.ibufBytes)
    (ht : BlockEncoded s t) (hv : BlockEncoded u v) : SameOutput t v := by
  obtain ⟨hframe, hlen, hbits, hbytes, -⟩ := ht
  obtain ⟨hframe', hlen', hbits', hbytes', -⟩ := hv
  rw [← h.inLen] at hlen' hbits' hbytes'
  refine ⟨hframe.err.trans hframe'.err.symm, BitVec.eq_of_toNat_eq (hlen.trans hlen'.symm),
    BitVec.eq_of_toNat_eq (hbits.trans hbits'.symm), fun j hj => ?_⟩
  obtain ⟨i, hi⟩ := Nat.even_or_odd' j
  have hlt : i < s.inLen.toNat := by omega
  obtain ⟨hhi, hlo⟩ := hbytes i hlt
  obtain ⟨hhi', hlo'⟩ := hbytes' i hlt
  rw [← h.ibufByte hfit hlt] at hhi' hlo'
  obtain rfl | rfl := hi
  · exact hhi.trans hhi'.symm
  · exact hlo.trans hlo'.symm

theorem BlockDecoded.sameOutput (h : SameInputs s u) (hfit : s.inLen.toNat ≤ s.params.ibufBytes)
    (ht : BlockDecoded s t) (hv : BlockDecoded u v) : SameOutput t v := by
  obtain ⟨hframe, hlen, hbits, hbytes, -⟩ := ht
  obtain ⟨hframe', hlen', hbits', hbytes', -⟩ := hv
  rw [← h.inLen] at hlen' hbits' hbytes'
  refine ⟨hframe.err.trans hframe'.err.symm, BitVec.eq_of_toNat_eq (hlen.trans hlen'.symm),
    BitVec.eq_of_toNat_eq (hbits.trans hbits'.symm), fun j hj => ?_⟩
  rw [hlen] at hj
  rw [hbytes j hj, hbytes' j hj, h.ibufByte hfit (by omega), h.ibufByte hfit (by omega)]

/-- A bit of the output is a stream bit, or one of the four unused trailing bits, which are 0 (R31). -/
theorem ConvEncoded.sameOutput (h : SameInputs s u) (hfit : s.inLen.toNat ≤ s.params.ibufBytes)
    (ht : ConvEncoded s t) (hv : ConvEncoded u v) : SameOutput t v := by
  obtain ⟨hframe, hlen, hbits, hstream, htail, -⟩ := ht
  obtain ⟨hframe', hlen', hbits', hstream', htail', -⟩ := hv
  rw [← h.inLen] at hlen' hbits' hstream' htail'
  refine ⟨hframe.err.trans hframe'.err.symm, BitVec.eq_of_toNat_eq (hlen.trans hlen'.symm),
    BitVec.eq_of_toNat_eq (hbits.trans hbits'.symm), fun j hj => byte_ext fun k hk => ?_⟩
  by_cases hused : 8 * j + (7 - k) < 16 * s.inLen.toNat + 4
  · have hbyte : (8 * j + (7 - k)) / 8 = j := by omega
    have hbit : 7 - (8 * j + (7 - k)) % 8 = k := by omega
    have hs := hstream _ hused
    have hu := hstream' _ hused
    rw [hbyte, hbit] at hs hu
    rw [hs, hu, h.convStreamBit_eq hfit]
  · obtain rfl : j = 2 * s.inLen.toNat := by omega
    rw [bit_of_lowNibble htail (by omega), bit_of_lowNibble htail' (by omega)]

end Ends

section Commands

variable {s u : State}

theorem SameInputs.blockEncode_sameOutput (h : SameInputs s u) : SameOutput (blockEncode s) (blockEncode u) := by
  refine sameOutput_of_checks h.blockEncodeError_eq blockEncode_of_error blockEncode_of_error fun hs hu => ?_
  obtain ⟨hi, ho⟩ := blockEncodeError_eq_none.mp hs
  obtain ⟨hi', ho'⟩ := blockEncodeError_eq_none.mp hu
  exact (blockEncode_blockEncoded hi ho).sameOutput h hi (blockEncode_blockEncoded hi' ho')

theorem SameInputs.blockDecode_sameOutput (h : SameInputs s u) : SameOutput (blockDecode s) (blockDecode u) := by
  refine sameOutput_of_checks h.blockDecodeError_eq blockDecode_of_error blockDecode_of_error fun hs hu => ?_
  obtain ⟨hi, he, ho⟩ := blockDecodeError_eq_none.mp hs
  obtain ⟨hi', he', ho'⟩ := blockDecodeError_eq_none.mp hu
  exact (blockDecode_blockDecoded hi he ho).sameOutput h hi (blockDecode_blockDecoded hi' he' ho')

theorem SameInputs.convEncode_sameOutput (h : SameInputs s u) : SameOutput (convEncode s) (convEncode u) := by
  refine sameOutput_of_checks h.convEncodeError_eq convEncode_of_error convEncode_of_error fun hs hu => ?_
  obtain ⟨hi, ho⟩ := convEncodeError_eq_none.mp hs
  obtain ⟨hi', ho'⟩ := convEncodeError_eq_none.mp hu
  exact (convEncode_convEncoded hi ho).sameOutput h hi (convEncode_convEncoded hi' ho')

/-- PENC's two schemes give the same output as the command each selects (R86). -/
theorem SameInputs.penc_sameOutput (h : SameInputs s u) :
    ∃ t v, exec .penc s = .next t ∧ exec .penc u = .next v ∧ SameOutput t v := by
  have hu := h.scheme
  cases hs : s.scheme with
  | block => exact ⟨_, _, by simp [exec, execPenc, hs], by simp [exec, execPenc, ← hu, hs], h.blockEncode_sameOutput⟩
  | conv => exact ⟨_, _, by simp [exec, execPenc, hs], by simp [exec, execPenc, ← hu, hs], h.convEncode_sameOutput⟩

/-- PDEC is DECB under BLOCK and ends in UNSUPPORTED under CONV (R87). -/
theorem SameInputs.pdec_sameOutput (h : SameInputs s u) :
    ∃ t v, exec .pdec s = .next t ∧ exec .pdec u = .next v ∧ SameOutput t v := by
  have hu := h.scheme
  cases hs : s.scheme with
  | block => exact ⟨_, _, by simp [exec, execPdec, hs], by simp [exec, execPdec, ← hu, hs], h.blockDecode_sameOutput⟩
  | conv =>
    exact ⟨_, _, by simp [exec, execPdec, hs], by simp [exec, execPdec, ← hu, hs], raise_sameOutput s u .unsupported⟩

/-- R29 for the defined commands. -/
theorem SameInputs.exec_sameResult (h : SameInputs s u) (i : Instr) :
    ∃ t v, exec i s = .next t ∧ exec i u = .next v ∧ SameResult (encode i) t v := by
  cases i with
  | encn =>
    refine ⟨_, _, rfl, rfl, sameResult_of_res ?_ ?_ (.inl rfl)⟩
    · rfl
    · simp [State.argNibble, h.arg]
  | decc =>
    refine ⟨_, _, rfl, rfl, sameResult_of_res ?_ ?_ (.inr rfl)⟩
    · rfl
    · simp [State.argCodeword, h.arg]
  | encb => exact ⟨_, _, rfl, rfl, h.blockEncode_sameOutput.sameResult (by decide)⟩
  | decb => exact ⟨_, _, rfl, rfl, h.blockDecode_sameOutput.sameResult (by decide)⟩
  | conv => exact ⟨_, _, rfl, rfl, h.convEncode_sameOutput.sameResult (by decide)⟩
  | penc =>
    obtain ⟨t, v, ht, hv, hout⟩ := h.penc_sameOutput
    exact ⟨t, v, ht, hv, hout.sameResult (by decide)⟩
  | pdec =>
    obtain ⟨t, v, ht, hv, hout⟩ := h.pdec_sameOutput
    exact ⟨t, v, ht, hv, hout.sameResult (by decide)⟩

end Commands

/-! ### The completion event -/

/-- A command in execution with no latency left completes in the next step (R27, R28). -/
theorem step_of_latency_zero {s : State} (hb : s.busy = true) (hl : s.latency = 0) : step s = runCommand s := by
  simp [step, nextEvent, hb, hl]

/-- A defined command's word is executed (R27). -/
theorem runCommand_of_ok {s : State} {i : Instr} (h : decode s.opw = .ok i) : runCommand s = exec i s := by
  simp [runCommand, State.commandWord, h]

/-- An illegal word ends in ILLEGAL_CMD (R47, R98). -/
theorem runCommand_of_error {s : State} {e : DecodeError} (h : decode s.opw = .error e) :
    runCommand s = .next (s.raise .illegalCmd) := by
  simp [runCommand, State.commandWord, h]

/-- The word of a command that decodes is that command's. -/
theorem eq_encode_of_decode {w : Word} {i : Instr} (h : decode w = .ok i) : w = encode i := by
  obtain ⟨-, herr⟩ | ⟨-, herr⟩ | ⟨k, hw, hok⟩ := decode_cases w
  · simp [herr] at h
  · simp [herr] at h
  · obtain rfl : k = i := by simpa [hok] using h
    exact hw

/-- An illegal word is not ENCN's or DECC's. -/
theorem not_single_of_decode_error {w : Word} {e : DecodeError} (h : decode w = .error e) :
    ¬(w = encode .encn ∨ w = encode .decc) := by
  rintro (rfl | rfl)
  · cases h
  · cases h

/-- R29 for every word, illegal ones included. -/
theorem SameInputs.runCommand_sameResult {s u : State} (h : SameInputs s u) :
    ∃ t v, runCommand s = .next t ∧ runCommand u = .next v ∧ SameResult s.opw t v := by
  cases hd : decode s.opw with
  | ok i =>
    rw [runCommand_of_ok hd, runCommand_of_ok (h.opw ▸ hd), eq_encode_of_decode hd]
    exact h.exec_sameResult i
  | error e =>
    rw [runCommand_of_error hd, runCommand_of_error (h.opw ▸ hd)]
    exact ⟨_, _, rfl, rfl, (raise_sameOutput s u .illegalCmd).sameResult (not_single_of_decode_error hd)⟩

/-- Settles O40: both machines are at their completion event, and `SameInputs.runCommand_sameResult` compares the two. -/
theorem resultsDependOnTheInputsOnly : Obligations.ResultsDependOnTheInputsOnly := by
  intro s u t v h hbs hbu hls hlu ht hv
  obtain ⟨t', v', ht', hv', hsame⟩ := h.runCommand_sameResult
  rw [step_of_latency_zero hbs hls, ht'] at ht
  rw [step_of_latency_zero hbu hlu, hv'] at hv
  cases ht
  cases hv
  exact hsame

end Sys2Proof.Machine

/-! ## The block codec (section 40)

The code is linear: `encNibble` and `syndrome` carry XOR to XOR, and a codeword has syndrome 0. So a received word
`encNibble n ^^^ e` decodes to `n ^^^ decCodeword e`, and R65's clauses say something of the error pattern `e` alone. -/

namespace Sys2Proof.Machine

/-! ### Linearity over XOR (R70) -/

theorem nibbleOfData_xor (a1 a2 a3 a4 b1 b2 b3 b4 : Bit) :
    nibbleOfData (a1 ^^^ b1) (a2 ^^^ b2) (a3 ^^^ b3) (a4 ^^^ b4) =
      nibbleOfData a1 a2 a3 a4 ^^^ nibbleOfData b1 b2 b3 b4 := by
  simp only [nibbleOfData, ← BitVec.xor_append]

theorem nibbleOfCodeword_xor (a b : BitVec 7) :
    nibbleOfCodeword (a ^^^ b) = nibbleOfCodeword a ^^^ nibbleOfCodeword b := by
  simp only [nibbleOfCodeword, bit_xor, nibbleOfData_xor]

theorem encNibble_xor (a b : Nibble) : encNibble (a ^^^ b) = encNibble a ^^^ encNibble b := by
  revert a b
  decide

theorem syndrome_xor (a b : Byte) : syndrome (a ^^^ b) = syndrome a ^^^ syndrome b := by
  have regroup : ∀ a0 a1 a2 a3 b0 b1 b2 b3 : Bit, (a0 ^^^ b0) ^^^ (a1 ^^^ b1) ^^^ (a2 ^^^ b2) ^^^ (a3 ^^^ b3) =
      (a0 ^^^ a1 ^^^ a2 ^^^ a3) ^^^ (b0 ^^^ b1 ^^^ b2 ^^^ b3) := by
    intros
    ac_rfl
  simp only [syndrome, bit_xor, regroup, ← BitVec.xor_append]

/-! ### Decoding a codeword with an error pattern (R62 to R65) -/

theorem syndrome_encNibble (n : Nibble) : syndrome (encNibble n) = 0#3 := by
  revert n
  decide

/-- The data bits of a codeword are its nibble (R50, R61). -/
theorem nibbleOfCodeword_encNibble (n : Nibble) : nibbleOfCodeword ((encNibble n).extractLsb' 0 7) = n := by
  revert n
  decide

/-- An error pattern on a word of syndrome 0 is corrected as if it stood alone. -/
theorem correct_xor {c : Byte} (hc : syndrome c = 0#3) (e : Byte) :
    correct (c ^^^ e) = c.extractLsb' 0 7 ^^^ correct e := by
  have hs : syndrome (c ^^^ e) = syndrome e := by rw [syndrome_xor, hc, BitVec.zero_xor]
  unfold correct
  rw [hs, BitVec.extractLsb'_xor]
  split
  · rfl
  · rw [BitVec.xor_assoc]

/-- What a codeword decodes to differs from its nibble by what the error pattern decodes to. -/
theorem decCodeword_encNibble_xor (n : Nibble) (e : Byte) : decCodeword (encNibble n ^^^ e) = n ^^^ decCodeword e := by
  rw [decCodeword, correct_xor (syndrome_encNibble n), nibbleOfCodeword_xor, nibbleOfCodeword_encNibble, decCodeword]

theorem decCodeword_zero : decCodeword 0#8 = 0#4 := by decide

/-- A single flip, of bit 7 too, decodes to 0. -/
theorem decCodeword_singleFlip : ∀ k, k < 8 → decCodeword (1#8 <<< k) = 0#4 := by decide

/-- The code is perfect: within bits 6 to 0, only no error and a single flip decode to 0. -/
theorem eq_zero_or_singleFlip_of_decCodeword_eq_zero :
    ∀ e : BitVec 7, decCodeword (e.setWidth 8) = 0#4 → e = 0#7 ∨ ∃ k, k < 7 ∧ e = 1#7 <<< k := by
  decide

/-! ### Distance -/

/-- The container bits in which two bytes differ. -/
def differingBits (a b : Byte) : List Nat := (List.range 8).filter fun k => bit a k ≠ bit b k

/-- Two bytes differ where their XOR has a bit set. -/
theorem differingBits_eq_xor (a b : Byte) : differingBits a b = differingBits (a ^^^ b) 0#8 := by
  unfold differingBits
  refine List.filter_congr fun k _ => ?_
  simp [bit_xor, BitVec.xor_eq_zero_iff]

theorem three_le_weight_encNibble : ∀ n : Nibble, n ≠ 0#4 → 3 ≤ (differingBits (encNibble n) 0#8).length := by
  decide

/-- The code has minimum distance 3. -/
theorem three_le_distance_encNibble {n m : Nibble} (h : n ≠ m) :
    3 ≤ (differingBits (encNibble n) (encNibble m)).length := by
  rw [differingBits_eq_xor, ← encNibble_xor]
  exact three_le_weight_encNibble _ fun h0 => h (BitVec.xor_eq_zero_iff.mp h0)

/-! ### Bit 7 of a received word (R62, R67) -/

/-- Masking with 0x7F leaves the bits below bit 7. -/
theorem bit_and_7F (c : Byte) {i : Nat} (hi : i < 7) : bit (c &&& 0x7F#8) i = bit c i := by
  have hmask : (0x7F#8).getLsbD i = true := by
    interval_cases i <;> rfl
  rw [bit_eq, bit_eq, BitVec.getLsbD_and, hmask, Bool.and_true]

theorem syndrome_and_7F (c : Byte) : syndrome (c &&& 0x7F#8) = syndrome c := by
  simp [syndrome, bit_and_7F]

theorem extractLsb'_and_7F (c : Byte) : (c &&& 0x7F#8).extractLsb' 0 7 = c.extractLsb' 0 7 := by
  rw [BitVec.extractLsb'_and]
  exact BitVec.and_allOnes

theorem decCodeword_and_7F (c : Byte) : decCodeword (c &&& 0x7F#8) = decCodeword c := by
  rw [decCodeword, decCodeword, correct, correct, syndrome_and_7F, extractLsb'_and_7F]

/-! ### The statements -/

/-- DECB completes with the first error that its checks find (R69, R101). -/
theorem exec_decb_of_error {s : State} {e : ErrCode} (he : e ≠ .none) (h : blockDecodeError s = e) :
    ∃ t, exec .decb s = .next t ∧ ErrorCompleted e s t := by
  subst h
  exact ⟨_, rfl, by rw [blockDecode_of_error he]; exact raise_errorCompleted s _⟩

/-- Settles O17: `blockEncode_cases` tells the two endings apart, and `blockEncode_blockEncoded` says what the good one
leaves. -/
theorem encbEncodesTheBuffer : Obligations.EncbEncodesTheBuffer := by
  refine ⟨rfl, fun s => ⟨fun hi ho => ⟨_, rfl, blockEncode_blockEncoded hi ho⟩, fun hbad => ⟨_, rfl, ?_⟩⟩⟩
  obtain ⟨-, h⟩ | ⟨hi, ho, -⟩ := blockEncode_cases s
  · rw [h]
    exact raise_errorCompleted s _
  · omega

/-- Settles O18: an even length that fits is `blockDecode_blockDecoded`; otherwise `exec_decb_of_error` gives the
first error of R101's order. -/
theorem decbDecodesTheBuffer : Obligations.DecbDecodesTheBuffer := by
  refine ⟨rfl, fun s => ⟨?_, ?_, ?_, ?_⟩⟩
  · intro hi heven ho
    exact ⟨_, rfl, blockDecode_blockDecoded hi heven ho⟩
  · intro hi hodd
    exact exec_decb_of_error (by decide) (by rw [blockDecodeError, if_neg (by omega), if_pos hodd])
  · intro hi
    exact exec_decb_of_error (by decide) (by rw [blockDecodeError, if_pos hi])
  · intro hi heven ho
    exact exec_decb_of_error (by decide) (by rw [blockDecodeError, if_neg (by omega), if_neg (by omega), if_pos ho])

/-- Settles O11: the sixteen values are evaluated. -/
theorem codewordsAreTheTable : Obligations.CodewordsAreTheTable := by
  unfold Obligations.CodewordsAreTheTable
  decide

/-- Settles O13: by `decCodeword_encNibble_xor` clauses (a) to (c) speak of the error pattern alone, and (d) is the
minimum weight of the code. -/
theorem blockCodeCorrectsOneErrorOnly : Obligations.BlockCodeCorrectsOneErrorOnly := by
  refine ⟨fun n => ?_, fun n k hk => ?_, fun n e hzero hsingle hdec => ?_,
    fun n m h => three_le_distance_encNibble h, 0#4, 1#4, by decide⟩
  · have h := decCodeword_encNibble_xor n 0#8
    rwa [BitVec.xor_zero, decCodeword_zero, BitVec.xor_zero] at h
  · rw [decCodeword_encNibble_xor, decCodeword_singleFlip k hk, BitVec.xor_zero]
  · rw [decCodeword_encNibble_xor] at hdec
    have he : decCodeword (e.setWidth 8) = 0#4 := by simpa using hdec
    obtain h0 | ⟨k, hk, h1⟩ := eq_zero_or_singleFlip_of_decCodeword_eq_zero e he
    · exact hzero h0
    · exact hsingle k hk h1

/-- Settles O15: one arm of `exec`, whose operand is `ARG[3:0]`. -/
theorem encnWritesTheCodeword : Obligations.EncnWritesTheCodeword :=
  ⟨rfl, fun _ => rfl⟩

/-- Settles O16: one arm of `exec`, and `decCodeword_and_7F` for `ARG[7]`. -/
theorem deccWritesTheNibble : Obligations.DeccWritesTheNibble :=
  ⟨rfl, fun _ => rfl, decCodeword_and_7F⟩

end Sys2Proof.Machine

/-! ## The convolutional encoder (section 41)

`convEncode_convEncoded` gives the stream of R76. The closed form of R83 reads the sixteen stream bits of a byte off a
window: the byte with the two bits before it in front. Each stream bit is an XOR of window bits, so the byte's share
(`convTable`) and the share of the two bits before it (`convCarry`) are separate. -/

namespace Sys2Proof.Machine

/-! ### Bits of composed words -/

/-- A word is known from its bits, here counted from the most significant one. -/
theorem eq_of_bit_eq {n : Nat} {a b : BitVec n} (h : ∀ u, u < n → bit a (n - 1 - u) = bit b (n - 1 - u)) : a = b := by
  refine BitVec.eq_of_getLsbD_eq fun k hk => ?_
  have hbit := h (n - 1 - k) (by omega)
  rw [show n - 1 - (n - 1 - k) = k by omega, bit_eq, bit_eq] at hbit
  simpa using congrArg (fun x : Bit => x.getLsbD 0) hbit

theorem bit_of_ge {n k : Nat} (v : BitVec n) (h : n ≤ k) : bit v k = 0#1 := by
  rw [bit_eq, BitVec.getLsbD_of_ge v k h]
  rfl

theorem bit_append {n m : Nat} (a : BitVec n) (b : BitVec m) (k : Nat) :
    bit (a ++ b) k = if k < m then bit b k else bit a (k - m) := by
  rw [bit_eq, bit_eq, bit_eq, BitVec.getLsbD_append]
  split <;> rfl

theorem bit_extractLsb' {n len k : Nat} (v : BitVec n) (start : Nat) (hk : k < len) :
    bit (v.extractLsb' start len) k = bit v (start + k) := by
  rw [bit_eq, bit_eq, BitVec.getLsbD_extractLsb', decide_eq_true hk, Bool.true_and]

theorem bit_pair : ∀ p q : Bit, bit (p ++ q) 0 = q ∧ bit (p ++ q) 1 = p := by
  decide

theorem bit_triple : ∀ x y z : Bit, bit (x ++ y ++ z) 0 = z ∧ bit (x ++ y ++ z) 1 = y ∧ bit (x ++ y ++ z) 2 = x := by
  decide

/-- Three neighbouring bits of a word. -/
theorem extractLsb'_three {n : Nat} (w : BitVec n) (m : Nat) :
    w.extractLsb' m 3 = bit w (m + 2) ++ bit w (m + 1) ++ bit w m := by
  obtain ⟨h0, h1, h2⟩ := bit_triple (bit w (m + 2)) (bit w (m + 1)) (bit w m)
  refine eq_of_bit_eq fun u hu => ?_
  rw [bit_extractLsb' w m (by omega)]
  interval_cases u
  · exact h2.symm
  · exact h1.symm
  · exact h0.symm

/-- Shifting a pair of bits in at the low end. -/
theorem bit_shiftLeft_or_pair (v : BitVec 16) (p q : Bit) {k : Nat} (hk : k < 16) :
    bit (v <<< 2 ||| (p ++ q).setWidth 16) k = if k < 2 then bit (p ++ q) k else bit v (k - 2) := by
  rw [bit_eq, BitVec.getLsbD_or, BitVec.getLsbD_shiftLeft, BitVec.getLsbD_setWidth]
  by_cases h2 : k < 2
  · simp [h2, hk, bit_eq]
  · simp [h2, hk, bit_eq, BitVec.getLsbD_of_ge (p ++ q) k (by omega)]

/-! ### Output bits of a window -/

/-- Output bit `u` of the byte in bits 7 to 0 of `w`; bits 8 and 9 are the two input bits before it, 0 where `w` has
none (R76). -/
def convWindowBit {n : Nat} (w : BitVec n) (u : Nat) : Bit :=
  if u % 2 = 0 then bit w (7 - u / 2) ^^^ bit w (7 - u / 2 + 1) ^^^ bit w (7 - u / 2 + 2)
  else bit w (7 - u / 2) ^^^ bit w (7 - u / 2 + 2)

theorem convWindowBit_even {n : Nat} (w : BitVec n) (d : Nat) :
    convWindowBit w (2 * d) = bit w (7 - d) ^^^ bit w (7 - d + 1) ^^^ bit w (7 - d + 2) := by
  rw [convWindowBit, if_pos (by omega), show 2 * d / 2 = d by omega]

theorem convWindowBit_odd {n : Nat} (w : BitVec n) (d : Nat) :
    convWindowBit w (2 * d + 1) = bit w (7 - d) ^^^ bit w (7 - d + 2) := by
  rw [convWindowBit, if_neg (by omega), show (2 * d + 1) / 2 = d by omega]

/-- A window bit is the byte's or one of the two bits before it. -/
theorem bit_append_eq_xor (q : BitVec 2) (B : Byte) (k : Nat) :
    bit (q ++ B) k = bit B k ^^^ bit (q ++ 0#8) k := by
  rw [bit_append, bit_append]
  by_cases h : k < 8
  · rw [if_pos h, if_pos h, bit_zero, BitVec.xor_zero]
  · rw [if_neg h, if_neg h, bit_of_ge B (by omega), BitVec.zero_xor]

/-- The shares of the byte and of the two bits before it are separate. -/
theorem convWindowBit_append (q : BitVec 2) (B : Byte) (u : Nat) :
    convWindowBit (q ++ B) u = convWindowBit B u ^^^ convWindowBit (q ++ 0#8) u := by
  simp only [convWindowBit, bit_append_eq_xor q B]
  split <;> ac_rfl

/-! ### `M(q)` and `T(B)` are the output of a window -/

theorem bit_convCarry : ∀ (q : BitVec 2) (u : Nat), u < 16 → bit (convCarry q) (15 - u) = convWindowBit (q ++ 0#8) u := by
  decide

/-- Two bits contribute to the first four output bits only. -/
theorem convCarry_lowNibble : ∀ q : BitVec 2, ((convCarry q).extractLsb' 8 8).extractLsb' 0 4 = 0#4 := by
  decide

/-- A step whose register and input bit are four neighbouring bits of a word (R75, R76). -/
theorem convStep_extractLsb' {n : Nat} (w : BitVec n) (m : Nat) :
    convStep (w.extractLsb' (m + 1) 3) (bit w m) =
      (w.extractLsb' m 3, bit w m ^^^ bit w (m + 1) ^^^ bit w (m + 2), bit w m ^^^ bit w (m + 2)) := by
  rw [extractLsb'_three, convStep_bits, extractLsb'_three]

/-- The register and the output of `convTable` after `n` of its steps. -/
def convTableAfter (B : Byte) : Nat → BitVec 3 × BitVec 16
  | 0 => (0#3, 0#16)
  | n + 1 =>
    let r := convStep (convTableAfter B n).1 (bit B (7 - n))
    (r.1, ((convTableAfter B n).2 <<< 2) ||| (r.2.1 ++ r.2.2).setWidth 16)

theorem convTable_eq (B : Byte) : convTable B = (convTableAfter B 8).2 := rfl

/-- The register holds the last three bits of the byte, and the output so far is that of the byte's window. -/
theorem convTableAfter_spec (B : Byte) {n : Nat} (hn : n ≤ 8) :
    (convTableAfter B n).1 = B.extractLsb' (8 - n) 3 ∧
      ∀ u, u < 2 * n → bit (convTableAfter B n).2 (2 * n - 1 - u) = convWindowBit B u := by
  induction n with
  | zero =>
    refine ⟨eq_of_bit_eq fun u hu => ?_, by omega⟩
    rw [bit_extractLsb' B _ (by omega), bit_of_ge B (by omega)]
    exact bit_zero 3 _
  | succ n ih =>
    obtain ⟨hreg, hout⟩ := ih (by omega)
    have hstep : convStep (convTableAfter B n).1 (bit B (7 - n)) =
        (B.extractLsb' (8 - (n + 1)) 3, convWindowBit B (2 * n), convWindowBit B (2 * n + 1)) := by
      rw [hreg, show 8 - n = 7 - n + 1 by omega, convStep_extractLsb', convWindowBit_even, convWindowBit_odd,
        show 8 - (n + 1) = 7 - n by omega]
    rw [convTableAfter, hstep]
    refine ⟨rfl, fun u hu => ?_⟩
    obtain ⟨hpair0, hpair1⟩ := bit_pair (convWindowBit B (2 * n)) (convWindowBit B (2 * n + 1))
    dsimp only
    rw [bit_shiftLeft_or_pair _ _ _ (by omega)]
    by_cases h0 : u = 2 * n + 1
    · rw [if_pos (by omega), show 2 * (n + 1) - 1 - u = 0 by omega, hpair0, h0]
    · by_cases h1 : u = 2 * n
      · rw [if_pos (by omega), show 2 * (n + 1) - 1 - u = 1 by omega, hpair1, h1]
      · rw [if_neg (by omega), show 2 * (n + 1) - 1 - u - 2 = 2 * n - 1 - u by omega]
        exact hout u (by omega)

theorem bit_convTable (B : Byte) {u : Nat} (hu : u < 16) : bit (convTable B) (15 - u) = convWindowBit B u := by
  obtain ⟨-, hout⟩ := convTableAfter_spec B (le_refl 8)
  rw [convTable_eq]
  exact hout u hu

/-- R83's sum, bit by bit. -/
theorem bit_convTable_xor_convCarry (q : BitVec 2) (B : Byte) {u : Nat} (hu : u < 16) :
    bit (convTable B ^^^ convCarry q) (15 - u) = convWindowBit (q ++ B) u := by
  rw [bit_xor, bit_convTable B hu, bit_convCarry q u hu, convWindowBit_append q B]

/-! ### The stream of R76 is the output of the input bytes' windows -/

/-- Byte `i` of the input, followed by the zero bits of the tail (R79). -/
def convInputByte (s : State) (i : Nat) : Byte := if i < s.inLen.toNat then s.ibufByte i else 0#8

theorem convInputBit_of_byte (s : State) (i : Nat) {d : Nat} (hd : d < 8) :
    convInputBit s (8 * i + d) = bit (convInputByte s i) (7 - d) := by
  unfold convInputBit convInputByte
  by_cases hi : i < s.inLen.toNat
  · rw [if_pos (by omega), if_pos hi, show (8 * i + d) / 8 = i by omega, show (8 * i + d) % 8 = d by omega]
  · rw [if_neg (by omega), if_neg hi, bit_zero]

/-- `b_(t-k)` for a step `t` of byte `i` lies in that byte or is one of the two bits before it. -/
theorem convPastBit_eq_window {s : State} {i d k : Nat} (hi : i ≤ s.inLen.toNat) (hd : d < 8) (hk : k ≤ 2) :
    convPastBit s (8 * i + d) k = bit (convBitsBefore s i ++ convInputByte s i) (7 - d + k) := by
  rw [bit_append, convPastBit]
  by_cases hkd : k ≤ d
  · rw [if_pos (by omega), if_pos (by omega), show 8 * i + d - k = 8 * i + (d - k) by omega,
      convInputBit_of_byte s i (by omega), show 7 - (d - k) = 7 - d + k by omega]
  · rw [if_neg (show ¬ 7 - d + k < 8 by omega), convBitsBefore]
    cases i with
    | zero => rw [if_neg (by omega), if_pos rfl, bit_zero]
    | succ i =>
      rw [if_pos (by omega), if_neg (by omega), Nat.add_sub_cancel, show 7 - d + k - 8 = k - 1 - d by omega,
        bit_extractLsb' _ 0 (by omega), Nat.zero_add, show 8 * (i + 1) + d - k = 8 * i + (8 + d - k) by omega,
        convInputBit_of_byte s i (by omega), convInputByte, if_pos (by omega), show 7 - (8 + d - k) = k - 1 - d by omega]

/-- Each byte, and the tail after the last one, adds to the stream the output of its window. -/
theorem convStreamBit_eq_window {s : State} {i u : Nat} (hi : i ≤ s.inLen.toNat) (hu : u < 16) :
    convStreamBit s (16 * i + u) = convWindowBit (convBitsBefore s i ++ convInputByte s i) u := by
  have hpast := fun {k : Nat} (hk : k ≤ 2) => convPastBit_eq_window (d := u / 2) hi (by omega) hk
  rw [convStreamBit, show (16 * i + u) / 2 = 8 * i + u / 2 by omega, show (16 * i + u) % 2 = u % 2 by omega,
    hpast (Nat.zero_le 2), hpast (by omega), hpast (le_refl 2)]
  rfl

/-! ### The bytes of R83 in what CONV leaves -/

section ClosedForm

variable {s t : State}

/-- An output bit of byte `i`'s two output bytes, or of the final byte. -/
theorem ConvEncoded.outputBit (h : ConvEncoded s t) {i u : Nat} (hi : i ≤ s.inLen.toNat) (hu : u < 16)
    (hlen : 16 * i + u < 16 * s.inLen.toNat + 4) :
    bit (t.obufByte (2 * i + u / 8)) (7 - u % 8) = convWindowBit (convBitsBefore s i ++ convInputByte s i) u := by
  obtain ⟨-, -, -, hstream, -⟩ := h
  have hbit := hstream (16 * i + u) hlen
  rwa [convStreamBit_eq_window hi hu, show (16 * i + u) / 8 = 2 * i + u / 8 by omega,
    show (16 * i + u) % 8 = u % 8 by omega] at hbit

theorem ConvEncoded.outputPair (h : ConvEncoded s t) {i : Nat} (hi : i < s.inLen.toNat) :
    t.obufByte (2 * i) ++ t.obufByte (2 * i + 1) = convTable (s.ibufByte i) ^^^ convCarry (convBitsBefore s i) := by
  refine eq_of_bit_eq (n := 16) fun u hu => ?_
  have hbit := h.outputBit hi.le hu (by omega)
  rw [convInputByte, if_pos hi] at hbit
  rw [bit_convTable_xor_convCarry _ _ hu, ← hbit, bit_append]
  by_cases h8 : u < 8
  · rw [if_neg (by omega), show 16 - 1 - u - 8 = 7 - u % 8 by omega, show 2 * i + u / 8 = 2 * i by omega]
  · rw [if_pos (by omega), show 16 - 1 - u = 7 - u % 8 by omega, show 2 * i + u / 8 = 2 * i + 1 by omega]

theorem ConvEncoded.finalByte (h : ConvEncoded s t) :
    t.obufByte (2 * s.inLen.toNat) = (convCarry (convBitsBefore s s.inLen.toNat)).extractLsb' 8 8 := by
  refine eq_of_bit_eq fun u hu => ?_
  by_cases h4 : u < 4
  · have hbit := h.outputBit (u := u) le_rfl (by omega) (by omega)
    rw [convInputByte, if_neg (lt_irrefl _), ← bit_convCarry _ u (by omega), show u / 8 = 0 by omega, Nat.add_zero,
      show u % 8 = u by omega] at hbit
    rw [bit_extractLsb' _ 8 (by omega), show 8 + (8 - 1 - u) = 15 - u by omega]
    exact hbit
  · obtain ⟨-, -, -, -, htail, -⟩ := h
    rw [bit_of_lowNibble htail (by omega), bit_of_lowNibble (convCarry_lowNibble _) (by omega)]

end ClosedForm

/-! ### The statements -/

/-- CONV completes without error only when the input fits in IBUF and the output in OBUF (R81). -/
theorem convEncoded_of_exec_conv {s t : State} (h : exec .conv s = .next t) (herr : t.err = .none) : ConvEncoded s t := by
  cases h
  obtain ⟨-, hraise⟩ | ⟨hi, ho, -⟩ := convEncode_cases s
  · rw [hraise] at herr
    cases herr
  · exact convEncode_convEncoded hi ho

/-- Settles O19: `convEncode_cases` tells the two endings apart, and `convEncode_convEncoded` says what the good one
leaves. -/
theorem convEncodesTheBuffer : Obligations.ConvEncodesTheBuffer := by
  refine ⟨rfl, fun s => ⟨fun hi ho => ⟨_, rfl, convEncode_convEncoded hi ho⟩, fun hbad => ⟨_, rfl, ?_⟩⟩⟩
  obtain ⟨-, h⟩ | ⟨hi, ho, -⟩ := convEncode_cases s
  · rw [h]
    exact raise_errorCompleted s _
  · omega

/-- Settles O24: the output bits of a byte and of the tail are those of their windows (`ConvEncoded.outputBit`), which
split into `T` and `M`. -/
theorem convHasAClosedFormPerByte : Obligations.ConvHasAClosedFormPerByte := by
  intro s t h herr
  have henc := convEncoded_of_exec_conv h herr
  exact ⟨fun i hi => henc.outputPair hi, henc.finalByte⟩

/-- Settles O22: the eight rows are evaluated for both values of the old `sr[2]`. -/
theorem convStepFollowsTheTable : Obligations.ConvStepFollowsTheTable := by
  unfold Obligations.ConvStepFollowsTheTable
  decide

end Sys2Proof.Machine

/-! ## The codec pipeline (section 42)

PENC and PDEC are a choice among the commands of sections 40 and 41 (R85). One equation for each command and scheme says
which; the rest is what the earlier statements say of the command that is chosen. -/

namespace Sys2Proof.Machine

section Dispatch

variable {s : State}

/-- R86 under SCHEME = BLOCK. -/
theorem exec_penc_of_block (h : s.scheme = .block) : exec .penc s = exec .encb s := by
  simp [exec, execPenc, execEncb, h]

/-- R86 under SCHEME = CONV. -/
theorem exec_penc_of_conv (h : s.scheme = .conv) : exec .penc s = exec .conv s := by
  simp [exec, execPenc, execConv, h]

/-- R87 under SCHEME = BLOCK. -/
theorem exec_pdec_of_block (h : s.scheme = .block) : exec .pdec s = exec .decb s := by
  simp [exec, execPdec, execDecb, h]

/-- R87 under SCHEME = CONV: no length is looked at. -/
theorem exec_pdec_of_conv (h : s.scheme = .conv) : exec .pdec s = .next (s.raise .unsupported) := by
  simp [exec, execPdec, h]

end Dispatch

/-- Settles O20: `exec_penc_of_block` and `exec_penc_of_conv` give the command PENC stands for, and O17 and O19 what that
command leaves when the lengths fit. -/
theorem pencRunsTheSelectedScheme : Obligations.PencRunsTheSelectedScheme := by
  obtain ⟨-, hencb⟩ := encbEncodesTheBuffer
  obtain ⟨-, hconv⟩ := convEncodesTheBuffer
  refine ⟨rfl, fun s => ⟨fun hblock => ?_, fun hscheme => ?_⟩⟩
  · obtain ⟨hfits, -⟩ := hencb s
    rw [exec_penc_of_block hblock]
    exact ⟨rfl, hfits⟩
  · obtain ⟨hfits, -⟩ := hconv s
    rw [exec_penc_of_conv hscheme]
    exact ⟨rfl, hfits⟩

/-- Settles O21: under BLOCK `exec_pdec_of_block` gives DECB, and O18 what it leaves; under CONV `exec_pdec_of_conv` gives
the error completion before any length check. -/
theorem pdecRunsTheBlockSchemeOnly : Obligations.PdecRunsTheBlockSchemeOnly := by
  obtain ⟨-, hdecb⟩ := decbDecodesTheBuffer
  refine ⟨rfl, fun s => ⟨fun hblock => ?_, fun hscheme => ?_⟩⟩
  · obtain ⟨hfits, -⟩ := hdecb s
    rw [exec_pdec_of_block hblock]
    exact ⟨rfl, hfits⟩
  · exact ⟨_, exec_pdec_of_conv hscheme, raise_errorCompleted s .unsupported⟩

end Sys2Proof.Machine

/-! ## Errors (section 60)

A command word either is one of the seven or is illegal, and each of the seven ends with the error that its own checks
find. So R101's one chain over all words splits along the decoder: `IllegalWord` for the words it refuses,
`commandError` for those it takes. -/

namespace Sys2Proof.Machine

/-! ### Illegal words -/

/-- R46: none of the seven words is illegal. -/
theorem not_illegalWord_encode (i : Instr) : ¬IllegalWord (encode i) := by
  unfold IllegalWord
  cases i <;> decide

/-- R47, R98: the decoder refuses exactly the illegal words. -/
theorem decode_error_iff_illegalWord (w : Word) : (∃ e, decode w = .error e) ↔ IllegalWord w := by
  obtain ⟨hbits, herr⟩ | ⟨rfl, herr⟩ | ⟨i, rfl, hok⟩ := decode_cases w
  · exact ⟨fun _ => .inr hbits, fun _ => ⟨_, herr⟩⟩
  · exact ⟨fun _ => .inl (by decide), fun _ => ⟨_, herr⟩⟩
  · simp [hok, not_illegalWord_encode]

/-- Settles O5: `decode_error_iff_illegalWord` names the refused words, and `runCommand_of_error` says how they end. -/
theorem illegalWordsEndInIllegalCmd : Obligations.IllegalWordsEndInIllegalCmd := by
  refine ⟨decode_error_iff_illegalWord, fun s hbusy hlatency hillegal => ?_⟩
  obtain ⟨e, he⟩ := (decode_error_iff_illegalWord s.opw).mpr hillegal
  rw [step_of_latency_zero hbusy hlatency, runCommand_of_error he]
  exact ⟨_, rfl, raise_errorCompleted s .illegalCmd⟩

/-! ### The error each command ends with -/

section Commands

variable {s t : State}

/-- R68: a block encode reports what its checks find. -/
theorem blockEncode_err (s : State) : (blockEncode s).err = blockEncodeError s := by
  by_cases h : blockEncodeError s = .none
  · obtain ⟨hi, ho⟩ := blockEncodeError_eq_none.mp h
    obtain ⟨hframe, -⟩ := blockEncode_blockEncoded hi ho
    rw [hframe.err, h]
  · rw [blockEncode_of_error h, State.raise_err]

/-- R69: a block decode reports what its checks find. -/
theorem blockDecode_err (s : State) : (blockDecode s).err = blockDecodeError s := by
  by_cases h : blockDecodeError s = .none
  · obtain ⟨hi, heven, ho⟩ := blockDecodeError_eq_none.mp h
    obtain ⟨hframe, -⟩ := blockDecode_blockDecoded hi heven ho
    rw [hframe.err, h]
  · rw [blockDecode_of_error h, State.raise_err]

/-- R81: a convolutional encode reports what its checks find. -/
theorem convEncode_err (s : State) : (convEncode s).err = convEncodeError s := by
  by_cases h : convEncodeError s = .none
  · obtain ⟨hi, ho⟩ := convEncodeError_eq_none.mp h
    obtain ⟨hframe, -⟩ := convEncode_convEncoded hi ho
    rw [hframe.err, h]
  · rw [convEncode_of_error h, State.raise_err]

/-- The part of R101's order that concerns one of the seven commands (R96, R97, R99). -/
def commandError (s : State) : Instr → ErrCode
  | .encn | .decc => .none
  | .encb => blockEncodeError s
  | .decb => blockDecodeError s
  | .conv => convEncodeError s
  | .penc =>
    match s.scheme with
    | .block => blockEncodeError s
    | .conv => convEncodeError s
  | .pdec =>
    match s.scheme with
    | .block => blockDecodeError s
    | .conv => .unsupported

/-- The latched word of a command selects that command's checks. -/
theorem reportedError_of_opw {i : Instr} (h : s.opw = encode i) : reportedError s = commandError s i := by
  unfold reportedError
  rw [h]
  cases i <;> rfl

/-- R98, R101: an illegal word reports ILLEGAL_CMD before anything else is looked at. -/
theorem reportedError_of_illegalWord (h : IllegalWord s.opw) : reportedError s = .illegalCmd := by
  unfold reportedError
  obtain hop | hbits := h
  · simp [hop]
  · rw [if_pos hbits]

/-- Every command ends with the error its checks find, and with none if they find none. -/
theorem err_of_exec {i : Instr} (h : exec i s = .next t) : t.err = commandError s i := by
  cases i with
  | encn => cases h; rfl
  | decc => cases h; rfl
  | encb => cases h; exact blockEncode_err s
  | decb => cases h; exact blockDecode_err s
  | conv => cases h; exact convEncode_err s
  | penc =>
    cases hs : s.scheme with
    | block =>
      rw [exec_penc_of_block hs] at h
      cases h
      simpa [commandError, hs] using blockEncode_err s
    | conv =>
      rw [exec_penc_of_conv hs] at h
      cases h
      simpa [commandError, hs] using convEncode_err s
  | pdec =>
    cases hs : s.scheme with
    | block =>
      rw [exec_pdec_of_block hs] at h
      cases h
      simpa [commandError, hs] using blockDecode_err s
    | conv =>
      rw [exec_pdec_of_conv hs] at h
      cases h
      simp [commandError, hs]

end Commands

/-- Settles O27: an illegal word is O5; a command that decodes ends with `commandError` (`err_of_exec`), and only its
error completion reports an error (`Ended.noError`). -/
theorem commandReportsTheFirstError : Obligations.CommandReportsTheFirstError := by
  obtain ⟨hrefused, hillegal⟩ := illegalWordsEndInIllegalCmd
  intro s hbusy hlatency
  cases hd : decode s.opw with
  | ok i =>
    obtain ⟨t, ht, hended⟩ := exec_ended i s
    refine ⟨t, ?_, ?_, hended.noError⟩
    · rw [step_of_latency_zero hbusy hlatency, runCommand_of_ok hd, ht]
    · rw [err_of_exec ht, reportedError_of_opw (eq_encode_of_decode hd)]
  | error e =>
    have hword : IllegalWord s.opw := (hrefused s.opw).mp ⟨e, hd⟩
    obtain ⟨t, ht, hcompleted⟩ := hillegal s hbusy hlatency hword
    have herr : t.err = .illegalCmd := by rw [hcompleted]
    exact ⟨t, ht, by rw [herr, reportedError_of_illegalWord hword], fun _ => by rwa [herr]⟩

end Sys2Proof.Machine

/-! ## Encoding (section 30)

`decode_cases` names the decoder's answers, so the round trip in both directions is a case split. -/

namespace Sys2Proof.Machine

/-- R46: each command's word decodes to that command. -/
@[simp] theorem decode_encode (i : Instr) : decode (encode i) = .ok i := by
  cases i <;> rfl

/-- Settles O4: `eq_encode_of_decode` in the one direction, `decode_encode` in the other. -/
theorem decodeAgreesWithEncode : Obligations.DecodeAgreesWithEncode := by
  intro w i
  constructor
  · exact eq_encode_of_decode
  · rintro rfl
    exact decode_encode i

/-- Settles O3: eight words are evaluated. -/
theorem sampleWordsDecode : Obligations.SampleWordsDecode :=
  ⟨rfl, rfl, rfl, rfl, rfl, rfl, rfl, rfl⟩

end Sys2Proof.Machine

/-! ## The invariant

Each named update of the state keeps the invariant, most of them because they write no field that it reads. The inversion
lemmas `access_cases`, `hostMove_cases`, `exec_cases` and `step_cases` say that a step is made of these updates. -/

namespace Sys2Proof.Machine

/-- Settles O41: every clause is about a value of R25's table. -/
theorem invariantHoldsAtReset : Obligations.InvariantHoldsAtReset := fun _ =>
  { ibufWf := .nil
    obufWf := .nil
    ibufInside := by simp [State.resetWith]
    obufInside := by simp [State.resetWith]
    busyStatus := fun _ => ⟨rfl, rfl⟩
    idleLatency := fun _ => rfl
    errorOutput := fun _ => ⟨rfl, rfl⟩
    resTop := bit_zero 8 7
    outLenFits := Nat.zero_le _
    outBitsFit := .inl rfl
    resultWritten := fun _ hj => absurd hj (Nat.not_lt_zero _)
    srTail := rfl
    nbWhole := .inl rfl
    accTail := rfl }

/-! ### The host's updates -/

section Updates

variable {s t : State}

theorem State.Inv.setScript (h : s.Inv) (lines : List HostLine) : ({ s with script := lines } : State).Inv := { h with }

theorem State.Inv.giveBack (h : s.Inv) (r : Returned) : (s.giveBack r).Inv := { h with }

theorem State.Inv.drawn (h : s.Inv) : s.drawn.Inv := { h with }

theorem State.Inv.start (h : s.Inv) (w : Word) : (s.start w).Inv :=
  { h with
    busyStatus := fun _ => ⟨rfl, rfl⟩
    idleLatency := fun hidle => by cases hidle
    errorOutput := fun herr => absurd rfl herr }

theorem State.Inv.writeIbuf (h : s.Inv) {i : Nat} (hi : i < s.params.ibufBytes) (b : Byte) : (s.writeIbuf i b).Inv :=
  { h with
    ibufWf := Memory.wf_set h.ibufWf i b
    ibufInside := Memory.inside_set h.ibufInside hi b }

/-- Latency runs while BUSY only. -/
theorem State.Inv.tick (h : s.Inv) (hb : s.busy = true) : s.tick.Inv :=
  { h with idleLatency := fun hidle => by cases hb.symm.trans hidle }

theorem State.Inv.assertReset (s : State) : s.assertReset.Inv := { invariantHoldsAtReset s.params with }

/-- A host access keeps the invariant. -/
theorem Accessed.inv {a : Access} (ha : Accessed a s t) (h : s.Inv) : t.Inv := by
  cases ha with
  | ignored ht => rwa [ht]
  | read r ht => exact ht ▸ h.giveBack r
  | freeRead r _ ht => exact ht ▸ (h.giveBack r).drawn
  | started v _ _ ht => exact ht ▸ h.start v
  | scheme _ _ _ ht | arg _ _ _ ht | inLen _ _ _ ht => exact ht ▸ { h with }
  | stored i b _ _ hi ht => exact ht ▸ h.writeIbuf hi b

/-- A host move keeps the invariant. -/
theorem Moved.inv (hm : Moved s t) (h : s.Inv) : t.Inv := by
  cases hm with
  | idle _ ht => rwa [ht]
  | access a rest _ ha => exact ha.inv (h.setScript rest)
  | rst rest _ ht => exact ht ▸ State.Inv.assertReset _
  | expanded l rest _ _ _ ht => exact ht ▸ h.setScript _

/-! ### The codec's updates -/

/-- An error completion leaves no result (R95, R102). -/
theorem State.Inv.raise (h : s.Inv) (hl : s.latency = 0) (e : ErrCode) : (s.raise e).Inv :=
  { h with
    busyStatus := fun hb => by cases hb
    idleLatency := fun _ => hl
    errorOutput := fun _ => ⟨rfl, rfl⟩
    outLenFits := Nat.zero_le _
    outBitsFit := .inl rfl
    resultWritten := fun _ hj => absurd hj (Nat.not_lt_zero _) }

theorem State.Inv.complete (h : s.Inv) (hl : s.latency = 0) : (s.complete .none).Inv :=
  { h with
    busyStatus := fun hb => by cases hb
    idleLatency := fun _ => hl
    errorOutput := fun herr => absurd rfl herr }

theorem State.Inv.setRes (h : s.Inv) {b : Byte} (hb : bit b 7 = 0#1) : (s.setRes b).Inv := { h with resTop := hb }

/-- A completion with a result: its lengths fit and agree, and each of its bytes has been written (R19, R20, R24). -/
theorem State.Inv.completeOutput (h : s.Inv) (hl : s.latency = 0) {bytes bits : Nat} (hfit : bytes ≤ s.params.obufBytes)
    (hbits : bits = 8 * bytes ∨ bits + 4 = 8 * bytes) (hwritten : ∀ j, j < bytes → Memory.get? s.obuf j ≠ none) :
    ((s.setOutput bytes bits).complete .none).Inv := by
  have hmax := s.params.obufBytes_le
  have hlen : (BitVec.ofNat 32 bytes).toNat = bytes := toNat_ofNat_32 (by omega)
  have hlen' : (BitVec.ofNat 32 bits).toNat = bits := toNat_ofNat_32 (by omega)
  exact
    { h.complete hl with
      errorOutput := fun herr => absurd rfl herr
      outLenFits := hlen.trans_le hfit
      outBitsFit := by simpa only [State.complete_outBits, State.complete_outLen, State.setOutput_outBits,
        State.setOutput_outLen, hlen, hlen'] using hbits
      resultWritten := fun j hj => hwritten j (hj.trans_eq hlen) }

/-- A byte written inside OBUF can only add to the bytes that have been written. -/
theorem State.Inv.writeObuf (h : s.Inv) {j : Nat} (hj : j < s.params.obufBytes) (b : Byte) : (s.writeObuf j b).Inv :=
  { h with
    obufWf := Memory.wf_set h.obufWf j b
    obufInside := Memory.inside_set h.obufInside hj b
    resultWritten := fun k hk => by
      rw [State.writeObuf_obuf, Memory.get?_set]
      split
      · exact Option.some_ne_none b
      · exact h.resultWritten k hk }

theorem State.Inv.blockEncodeLoop {n i : Nat} (h : s.Inv) (hn : 2 * (i + n) ≤ s.params.obufBytes) :
    (blockEncodeLoop n i s).Inv := by
  induction n generalizing i s with
  | zero => exact h
  | succ n ih =>
    refine ih ((h.writeObuf ?_ _).writeObuf ?_ _) ?_
    · omega
    · show 2 * i + 1 < s.params.obufBytes
      omega
    · show 2 * (i + 1 + n) ≤ s.params.obufBytes
      omega

theorem State.Inv.blockDecodeLoop {n i : Nat} (h : s.Inv) (hn : i + n ≤ s.params.obufBytes) :
    (blockDecodeLoop n i s).Inv := by
  induction n generalizing i s with
  | zero => exact h
  | succ n ih =>
    refine ih (h.writeObuf ?_ _) ?_
    · omega
    · show i + 1 + n ≤ s.params.obufBytes
      omega

/-- A convolutional encode keeps every byte that it does not write, and leaves SR, NB and ACC as R78 to R80 say. -/
theorem Encoded.inv (e : Encoded s t) (h : s.Inv) (ho : 2 * s.inLen.toNat + 1 ≤ s.params.obufBytes) : t.Inv := by
  have hwritten : ∀ j, j < s.outLen.toNat → Memory.get? t.obuf j ≠ none := by
    intro j hj
    by_cases hresult : j ≤ 2 * s.inLen.toNat
    · obtain ⟨v, hv, -⟩ := e.bytes j hresult
      exact hv ▸ Option.some_ne_none v
    · rw [e.rest j (by omega)]
      exact h.resultWritten j hj
  have hsr : t.sr.extractLsb' 0 2 = 0#2 := by
    rw [e.register]
    exact BitVec.extractLsb'_append_eq_right
  have hwf := e.wf h.obufWf
  have hinside := e.inside _ ho h.obufInside
  have hcount := e.count
  have hacc := e.accTail
  rw [e.frame]
  exact
    { h with
      obufWf := hwf
      obufInside := hinside
      resultWritten := hwritten
      srTail := hsr
      nbWhole := .inr (by show t.nb.toNat % 16 = 4; omega)
      accTail := hacc }

/-- A command keeps the invariant, however it ends. -/
theorem Ended.inv {i : Instr} (he : Ended i s t) (h : s.Inv) (hl : s.latency = 0) : t.Inv := by
  cases he with
  | error e _ _ _ ht => exact ht ▸ h.raise hl e
  | single b hb _ ht => exact ht ▸ (h.setRes hb).complete hl
  | encoded _ ho _ ht =>
    have hloop : (blockEncodeLoop s.inLen.toNat 0 s).Inv := h.blockEncodeLoop (by omega)
    have hframe := blockEncodeLoop_frame s.inLen.toNat 0 s
    rw [ht]
    refine hloop.completeOutput ?_ ?_ (by omega) fun j hj => ?_
    · rw [hframe]; exact hl
    · rw [hframe]; exact ho
    · rw [blockEncodeLoop_get?, if_pos (by omega)]
      exact Option.some_ne_none _
  | decoded _ _ ho _ ht =>
    have hloop : (blockDecodeLoop (s.inLen.toNat / 2) 0 s).Inv := h.blockDecodeLoop (by omega)
    have hframe := blockDecodeLoop_frame (s.inLen.toNat / 2) 0 s
    rw [ht]
    refine hloop.completeOutput ?_ ?_ (by omega) fun j hj => ?_
    · rw [hframe]; exact hl
    · rw [hframe]; exact ho
    · rw [blockDecodeLoop_get?, if_pos (by omega)]
      exact Option.some_ne_none _
  | convolved hi ho _ ht =>
    have e := convRun_encoded hi
    have hcount := e.count
    rw [ht]
    refine (e.inv h ho).completeOutput ?_ ?_ (by omega) fun j hj => ?_
    · rw [e.frame]; exact hl
    · have hpar : (convRun s).params = s.params := by rw [e.frame]
      rw [hpar]
      omega
    · obtain ⟨v, hv, -⟩ := e.bytes j (by omega)
      exact hv ▸ Option.some_ne_none v

end Updates

/-- Settles O42: `step_cases` gives a completed command, an error completion or a host move, each of which keeps the
invariant. -/
theorem everyStepKeepsTheInvariant : Obligations.EveryStepKeepsTheInvariant := by
  intro s t h hstep
  cases step_cases hstep with
  | command i _ hl _ he => exact he.inv h hl
  | illegal e _ hl _ ht => exact ht ▸ h.raise hl .illegalCmd
  | busyHost n hb _ hm => exact hm.inv (h.tick hb)
  | idleHost _ hm => exact hm.inv h

end Sys2Proof.Machine

/-! ## The step

Who has the turn decides what a step is: the host's next line, or the completion event of the latched command. One
equation per turn, and two consequences of the inversion `step_cases`: a step completes a command or moves the host, and
while BUSY a host move leaves the command in execution alone. -/

namespace Sys2Proof.Machine

/-! ### One equation for each turn -/

section Turns

variable {s : State}

theorem step_of_idle (hb : s.busy = false) : step s = .next s.hostMove := by
  simp [step, nextEvent, hb]

theorem step_of_latency_succ {n : Nat} (hb : s.busy = true) (hl : s.latency = n + 1) : step s = .next s.tick.hostMove := by
  simp [step, nextEvent, hb, hl]

theorem tick_of_latency_succ {n : Nat} (hl : s.latency = n + 1) : s.tick = { s with latency := n } := by
  simp [State.tick, hl]

theorem hostMove_of_nil (h : s.script = []) : s.hostMove = s := by
  simp [State.hostMove, h]

theorem hostMove_of_cons {l : HostLine} {rest : List HostLine} (h : s.script = l :: rest) :
    s.hostMove = ({ s with script := rest } : State).perform l := by
  simp [State.hostMove, h]

end Turns

/-- Settles O6: `step_of_latency_zero`, and `runCommand_of_ok` for the word that decodes. -/
theorem stepRunsTheLatchedCommand : Obligations.StepRunsTheLatchedCommand := by
  intro s i hb hl hi
  rw [step_of_latency_zero hb hl, runCommand_of_ok hi]

/-- Settles O7: the turn's equation, then the script's. -/
theorem stepPerformsTheHostsNextLine : Obligations.StepPerformsTheHostsNextLine := by
  intro s
  refine ⟨fun l rest hb hs => ?_, fun l rest n hb hl hs => ?_, fun hb hs => ?_, fun n hb hl hs => ?_⟩
  · rw [step_of_idle hb, hostMove_of_cons hs]
  · rw [step_of_latency_succ hb hl, tick_of_latency_succ hl]
    exact congrArg _ (hostMove_of_cons hs)
  · rw [step_of_idle hb, hostMove_of_nil hs]
  · rw [step_of_latency_succ hb hl, tick_of_latency_succ hl]
    exact congrArg _ (hostMove_of_nil hs)

/-- Settles O8: `step_next`. -/
theorem noStepStops : Obligations.NoStepStops := by
  intro s
  obtain ⟨t, ht, -⟩ := step_next s
  exact ⟨t, ht⟩

/-- An idle CMD register takes a command word (R14, R26). -/
theorem access_cmd_of_idle {s : State} (hb : s.busy = false) (w : Word) : s.access (.regWrite 0 w) = s.start w := by
  show s.writeReg .cmd w = s.start w
  simp [State.writeReg, hb]

/-- Settles O9: the next line is performed (O7), and a write to CMD is `State.start`. -/
theorem commandWriteStartsTheCommand : Obligations.CommandWriteStartsTheCommand := by
  intro s w rest hb hs
  obtain ⟨hidle, -⟩ := stepPerformsTheHostsNextLine s
  rw [hidle _ _ hb hs]
  exact congrArg _ (access_cmd_of_idle (s := { s with script := rest }) hb w)

/-! ### Reset -/

/-- Settles O1: R25's table is what `State.resetWith` writes down, and no byte of either memory is listed. -/
theorem resetLeavesTheTableValues : Obligations.ResetLeavesTheTableValues := by
  intro p
  refine ⟨rfl, rfl, rfl, rfl, rfl, rfl, rfl, rfl, rfl, rfl, rfl, rfl, rfl, rfl, fun i => rfl, fun j => rfl⟩

/-- R110, R111: when the host has the turn and its next line is `rst`, a step is the reset, with latency left or not. -/
theorem step_of_rst {s : State} {rest : List HostLine} (hs : s.script = .rst :: rest)
    (hturn : s.busy = false ∨ 0 < s.latency) : step s = .next ({ s with script := rest } : State).assertReset := by
  obtain ⟨hidle, hbusy, -⟩ := stepPerformsTheHostsNextLine s
  cases hb : s.busy with
  | false => exact hidle _ _ hb hs
  | true =>
    have hpos : 0 < s.latency := hturn.resolve_left (by simp [hb])
    exact hbusy _ _ (s.latency - 1) hb (by omega) hs

/-- Settles O2: `step_of_rst`, and what `State.assertReset` writes. -/
theorem assertedResetAbandonsEverything : Obligations.AssertedResetAbandonsEverything := by
  intro s rest hs hturn
  exact ⟨_, step_of_rst hs hturn, rfl, rfl, rfl, rfl, rfl, rfl, rfl, rfl, rfl, rfl, rfl, rfl, rfl, rfl, fun _ => rfl,
    fun _ => rfl, rfl, rfl⟩

/-! ### A step completes a command or moves the host -/

section Steps

variable {s t : State}

/-- An error completion is a completion (R28, R102). -/
theorem raise_completes (s : State) (e : ErrCode) : Completes s (s.raise e) := by
  constructor <;> rfl

/-- R27: with no latency left the next step is the completion event. -/
theorem step_completes (hb : s.busy = true) (hl : s.latency = 0) : ∃ t, step s = .next t ∧ Completes s t := by
  obtain ⟨t, ht, hkind⟩ := step_next s
  refine ⟨t, ht, ?_⟩
  cases hkind with
  | command i _ _ _ he => exact he.completes
  | illegal e _ _ _ ht => exact ht ▸ raise_completes s .illegalCmd
  | busyHost n _ hl' _ => omega
  | idleHost hb' _ => cases hb.symm.trans hb'

theorem step_completes_or_moves (h : step s = .next t) : Completes s t ∨ ∃ u, (u = s ∨ u = s.tick) ∧ Moved u t := by
  cases step_cases h with
  | command i _ _ _ he => exact .inl he.completes
  | illegal e _ _ _ ht => exact .inl (ht ▸ raise_completes s .illegalCmd)
  | busyHost n _ _ hm => exact .inr ⟨_, .inr rfl, hm⟩
  | idleHost _ hm => exact .inr ⟨_, .inl rfl, hm⟩

/-- R15: the host changes SCHEME by a write to CFG while idle, or by `rst`. -/
theorem Moved.scheme_ne (hm : Moved s t) (hne : t.scheme ≠ s.scheme) :
    (∃ rest, s.script = .rst :: rest) ∨ s.busy = false ∧ ∃ v rest, s.script = .access (.regWrite 1 v) :: rest := by
  cases hm with
  | idle _ ht | expanded _ _ _ _ _ ht => exact absurd (ht ▸ rfl) hne
  | rst rest hs _ => exact .inl ⟨rest, hs⟩
  | access a rest hs ha =>
    cases ha with
    | scheme v ha hb _ => exact .inr ⟨hb, v, rest, ha ▸ hs⟩
    | ignored ht | read _ ht | freeRead _ _ ht | started _ _ _ ht | arg _ _ _ ht | inLen _ _ _ ht | stored _ _ _ _ _ ht =>
      exact absurd (ht ▸ rfl) hne

/-- R23: the host changes a byte of IBUF by a write of it while idle, or by `rst`. -/
theorem Moved.ibufByte_ne {i : Nat} (hm : Moved s t) (hne : t.ibufByte i ≠ s.ibufByte i) :
    (∃ rest, s.script = .rst :: rest) ∨
      s.busy = false ∧ i < s.params.ibufBytes ∧ ∃ rest, s.script = .access (.ibufWrite i (t.ibufByte i)) :: rest := by
  cases hm with
  | idle _ ht | expanded _ _ _ _ _ ht => exact absurd (ht ▸ rfl) hne
  | rst rest hs _ => exact .inl ⟨rest, hs⟩
  | access a rest hs ha =>
    cases ha with
    | stored k b ha hb hk ht =>
      rw [ht, ibufByte_writeIbuf] at hne ⊢
      by_cases hik : i = k
      · subst hik
        exact .inr ⟨hb, hk, rest, by rw [if_pos rfl, hs, ha]⟩
      · rw [if_neg hik] at hne
        exact absurd rfl hne
    | ignored ht | read _ ht | freeRead _ _ ht | started _ _ _ ht | scheme _ _ _ ht | arg _ _ _ ht | inLen _ _ _ ht =>
      exact absurd (ht ▸ rfl) hne

end Steps

/-- Settles O31: a completed command leaves SCHEME (`Completes`), and a host move changes it as `Moved.scheme_ne` says. -/
theorem schemeChangesOnlyWhileIdle : Obligations.SchemeChangesOnlyWhileIdle := by
  intro s t hstep hne
  obtain hc | ⟨u, rfl | rfl, hm⟩ := step_completes_or_moves hstep
  · exact absurd hc.scheme hne
  · exact hm.scheme_ne hne
  · exact hm.scheme_ne hne

/-- Settles O32: a completed command leaves IBUF (`Completes`), and a host move changes it as `Moved.ibufByte_ne` says. -/
theorem inputBytesChangeOnlyByHostWrites : Obligations.InputBytesChangeOnlyByHostWrites := by
  intro s t i hstep hne
  obtain hc | ⟨u, rfl | rfl, hm⟩ := step_completes_or_moves hstep
  · exact absurd (ibufByte_congr hc.ibuf hc.params hc.resets i) hne
  · exact hm.ibufByte_ne hne
  · exact hm.ibufByte_ne hne

/-! ### Several machines in one system (R40) -/

/-- What a system's step does, by whether `k` names a machine. -/
theorem stepInstance_cases {sys sys' : List State} {k : Nat} (h : stepInstance sys k = .next sys') :
    sys[k]? = none ∧ sys' = sys ∨ ∃ s t, sys[k]? = some s ∧ step s = .next t ∧ sys' = sys.set k t := by
  unfold stepInstance at h
  cases hk : sys[k]? with
  | none => exact .inl ⟨rfl, by simpa [hk] using h.symm⟩
  | some s =>
    obtain ⟨t, ht, -⟩ := step_next s
    exact .inr ⟨s, t, rfl, ht, by simpa [hk, ht] using h.symm⟩

/-- Settles O43: the system's step replaces entry `k` of the list by that machine's own next state. -/
theorem instancesAreIndependent : Obligations.InstancesAreIndependent := by
  intro sys sys' k h
  obtain ⟨hk, rfl⟩ | ⟨s, t, hk, ht, rfl⟩ := stepInstance_cases h
  · exact ⟨fun _ _ => rfl, fun s hs => by simp [hk] at hs⟩
  · obtain ⟨hlt, -⟩ := List.getElem?_eq_some_iff.mp hk
    refine ⟨fun j hj => List.getElem?_set_ne hj.symm, fun u hu => ⟨t, ?_, ?_⟩⟩
    · obtain rfl : s = u := Option.some.inj (hk.symm.trans hu)
      exact ht
    · rw [List.getElem?_set_self hlt]

end Sys2Proof.Machine

/-! ## Runs to completion

While BUSY a host move that is not `rst` leaves the command in execution and its latency alone, so a property of what the
host has still to do that such moves keep holds right up to the completion event (`run_to_completion`). Both termination
statements are this induction with a property of their own. -/

namespace Sys2Proof.Machine

section Busy

variable {s t : State}

/-- R115: while BUSY an access changes only what the host has read and the count of free values. -/
theorem Accessed.locked {a : Access} (ha : Accessed a s t) (hb : s.busy = true) :
    t = { s with returned := t.returned, draws := t.draws } := by
  cases ha with
  | ignored ht => rw [ht]
  | read _ ht | freeRead _ _ ht => rw [ht]; rfl
  | started _ _ hidle _ | scheme _ _ hidle _ | arg _ _ hidle _ | inLen _ _ hidle _ | stored _ _ _ hidle _ _ =>
    cases hb.symm.trans hidle

/-- A host move short of `rst` leaves the command in execution. -/
theorem Moved.keeps_command (hm : Moved s t) (hb : s.busy = true) (hrst : ∀ rest, s.script ≠ .rst :: rest) :
    t.busy = true ∧ t.latency = s.latency := by
  cases hm with
  | idle _ ht | expanded _ _ _ _ _ ht =>
    rw [ht]
    exact ⟨hb, rfl⟩
  | access a rest _ ha =>
    rw [ha.locked hb]
    exact ⟨hb, rfl⟩
  | rst rest hs _ => exact absurd hs (hrst rest)

/-- R28: a command in execution completes after as many steps as its latency says and one more, from a state that has
every property that excludes `rst` and that host moves keep. -/
theorem run_to_completion {P : State → Prop} (hrst : ∀ s, P s → ∀ rest, s.script ≠ .rst :: rest)
    (hkeep : ∀ s, s.busy = true → P s → P s.tick.hostMove) (hb : s.busy = true) (hP : P s) :
    ∃ u t, SafeRun (s.latency + 1) s t ∧ P u ∧ Completes u t := by
  induction hl : s.latency generalizing s with
  | zero =>
    obtain ⟨t, ht, hc⟩ := step_completes hb hl
    exact ⟨s, t, .succ ht (.zero t), hP, hc⟩
  | succ n ih =>
    obtain ⟨hb', hl'⟩ := (hostMove_cases s.tick).keeps_command hb (hrst s hP)
    have hn : s.tick.latency = n := by rw [State.tick_latency, hl, Nat.add_sub_cancel]
    obtain ⟨u, t, hrun, hPu, hc⟩ := ih hb' (hkeep s hb hP) (hl'.trans hn)
    exact ⟨u, t, .succ (step_of_latency_succ hb hl) hrun, hPu, hc⟩

end Busy

/-! ### Any host, short of `rst` -/

theorem rst_not_mem_storeBytes (i : Nat) (bs : List Byte) : .rst ∉ HostLine.storeBytes i bs := by
  induction bs generalizing i with
  | nil => simp [HostLine.storeBytes]
  | cons b bs ih => simp [HostLine.storeBytes, ih]

theorem rst_not_mem_copyBytes (n i : Nat) : .rst ∉ HostLine.copyBytes n i := by
  induction n generalizing i with
  | zero => simp [HostLine.copyBytes]
  | succ n ih => simp [HostLine.copyBytes, ih]

/-- R55: no pseudo-operation asserts `rst`. -/
theorem rst_not_mem_expand {l : HostLine} (hl : l ≠ .rst) (r : List Returned) : .rst ∉ l.expand r := by
  cases l with
  | rst => exact absurd rfl hl
  | pollAgain =>
    rw [HostLine.expand]
    split <;> simp [HostLine.rd]
  | load bs => simp [HostLine.expand, HostLine.wr, rst_not_mem_storeBytes]
  | copyOut => simp [HostLine.expand, HostLine.wr, rst_not_mem_copyBytes]
  | _ => simp [HostLine.expand, HostLine.wr, HostLine.rd]

theorem Moved.rst_not_mem {s t : State} (hm : Moved s t) (hb : s.busy = true) (h : .rst ∉ s.script) : .rst ∉ t.script := by
  cases hm with
  | idle _ ht => rwa [ht]
  | rst rest hs _ => exact absurd (hs ▸ List.mem_cons_self) h
  | access a rest hs ha =>
    rw [ha.locked hb]
    exact fun hmem => h (hs ▸ List.mem_cons_of_mem _ hmem)
  | expanded l rest hs _ hr ht =>
    rw [ht]
    exact fun hmem => (List.mem_append.mp hmem).elim (rst_not_mem_expand hr _)
      fun hrest => h (hs ▸ List.mem_cons_of_mem _ hrest)

/-- Settles O10: `run_to_completion`, with the property that the script holds no `rst`. -/
theorem startedCommandCompletes : Obligations.StartedCommandCompletes := by
  intro s hb hscript
  obtain ⟨u, t, hrun, -, hc⟩ := run_to_completion (P := fun s => .rst ∉ s.script)
    (fun s h rest hs => h (hs ▸ List.mem_cons_self))
    (fun s hb h => (hostMove_cases s.tick).rst_not_mem hb h) hb hscript
  exact ⟨t, hrun, hc.busy, hc.done⟩

/-! ### A host in `WAIT` -/

/-- The host has reached `WAIT` and not yet seen BUSY = 0: a poll that has read STATUS while BUSY read BUSY = 1. -/
def Waiting (rest : List HostLine) (s : State) : Prop :=
  s.script = .wait :: rest ∨ s.script = .rd .status :: .pollAgain :: rest ∨
    s.script = .pollAgain :: rest ∧ (s.busy = true → bit (lastWord s.returned) 0 = 1#1)

/-- A run from here gets past `WAIT` with the machine idle (R55). -/
def EndsIdle (rest : List HostLine) (s : State) : Prop := ∃ k t, SafeRun k s t ∧ t.script = rest ∧ t.busy = false

theorem SafeRun.trans {k m : Nat} {s t u : State} (h : SafeRun k s t) (h' : SafeRun m t u) : SafeRun (k + m) s u := by
  induction k generalizing s with
  | zero =>
    cases h
    rwa [Nat.zero_add]
  | succ k ih =>
    obtain ⟨v, hv, -⟩ := step_next s
    rw [Nat.succ_add]
    exact .succ hv (ih ((run_succ core hv).symm.trans h))

section Wait

variable {s t : State} {rest : List HostLine}

/-- BUSY is bit 0 of STATUS (R13). -/
theorem bit_statusWord_zero (s : State) : bit s.statusWord 0 = BitVec.ofBool s.busy := by
  rw [State.statusWord, bit_append, if_pos Nat.one_pos]
  cases s.busy <;> rfl

/-- STATUS can be read at any time (R115). -/
theorem access_readStatus (s : State) : s.access (.regRead Reg.status.number) = s.giveBack (.word s.statusWord) := by
  show s.hostRegRead 2 = _
  simp [State.hostRegRead, Reg.ofNumber, State.regWord]

theorem hostMove_of_wait (h : s.script = .wait :: rest) :
    s.hostMove = { s with script := .rd .status :: .pollAgain :: rest } := by
  rw [hostMove_of_cons h]
  rfl

theorem hostMove_of_readStatus (h : s.script = .rd .status :: rest) :
    s.hostMove = ({ s with script := rest } : State).giveBack (.word s.statusWord) := by
  rw [hostMove_of_cons h]
  exact access_readStatus _

theorem hostMove_of_pollAgain (h : s.script = .pollAgain :: rest) :
    s.hostMove =
      { s with script := (if bit (lastWord s.returned) 0 = 1#1 then [.rd .status, .pollAgain] else []) ++ rest } := by
  rw [hostMove_of_cons h]
  rfl

theorem Waiting.script_ne_rst (h : Waiting rest s) (lines : List HostLine) : s.script ≠ .rst :: lines := by
  obtain h | h | ⟨h, -⟩ := h <;> simp [h, HostLine.rd]

/-- While BUSY the host goes on waiting. -/
theorem Waiting.hostMove_of_busy (h : Waiting rest s) (hb : s.busy = true) : Waiting rest s.tick.hostMove := by
  obtain h | h | ⟨h, hread⟩ := h
  · exact .inr (.inl (by rw [hostMove_of_wait (s := s.tick) h]))
  · refine .inr (.inr ⟨by rw [hostMove_of_readStatus (s := s.tick) h]; rfl, fun _ => ?_⟩)
    rw [hostMove_of_readStatus (s := s.tick) h]
    exact (bit_statusWord_zero s.tick).trans (congrArg BitVec.ofBool hb)
  · refine .inr (.inl ?_)
    rw [hostMove_of_pollAgain (s := s.tick) h, State.tick_returned, if_pos (hread hb)]
    rfl

/-- A completion event leaves the host where it was. -/
theorem Waiting.of_completes (h : Waiting rest s) (hc : Completes s t) : Waiting rest t := by
  unfold Waiting at h ⊢
  rw [hc.script, hc.busy]
  exact h.imp_right fun h => h.imp_right fun ⟨h, _⟩ => ⟨h, by simp⟩

theorem EndsIdle.of_idle (hs : s.script = rest) (hb : s.busy = false) : EndsIdle rest s := ⟨0, s, .zero s, hs, hb⟩

theorem EndsIdle.of_hostMove (hb : s.busy = false) (h : EndsIdle rest s.hostMove) : EndsIdle rest s := by
  obtain ⟨k, t, hrun, hend⟩ := h
  exact ⟨k + 1, t, .succ (step_of_idle hb) hrun, hend⟩

/-- A poll while idle reads BUSY = 0 and is the last one. -/
theorem endsIdle_of_readStatus (hb : s.busy = false) (h : s.script = .rd .status :: .pollAgain :: rest) :
    EndsIdle rest s := by
  refine .of_hostMove hb ?_
  rw [hostMove_of_readStatus h]
  refine .of_hostMove hb ?_
  have hbit : bit s.statusWord 0 ≠ 1#1 := by simp [bit_statusWord_zero, hb]
  rw [hostMove_of_pollAgain rfl]
  exact .of_idle (congrArg (· ++ rest) (if_neg hbit)) hb

theorem Waiting.endsIdle_of_idle (h : Waiting rest s) (hb : s.busy = false) : EndsIdle rest s := by
  obtain h | h | ⟨h, -⟩ := h
  · refine .of_hostMove hb ?_
    rw [hostMove_of_wait h]
    exact endsIdle_of_readStatus hb rfl
  · exact endsIdle_of_readStatus hb h
  · refine .of_hostMove hb ?_
    rw [hostMove_of_pollAgain h]
    split
    · exact endsIdle_of_readStatus hb rfl
    · exact .of_idle rfl hb

end Wait

/-- Settles O37: while BUSY the host is `Waiting` up to the completion event (`run_to_completion`), and an idle machine
ends the polling. -/
theorem waitEndsWithAnIdleMachine : Obligations.WaitEndsWithAnIdleMachine := by
  intro s rest hs
  have hw : Waiting rest s := .inl hs
  cases hb : s.busy with
  | false => exact hw.endsIdle_of_idle hb
  | true =>
    obtain ⟨u, t, hrun, hu, hc⟩ := run_to_completion (P := Waiting rest) (fun _ h => h.script_ne_rst)
      (fun _ hb h => h.hostMove_of_busy hb) hb hw
    obtain ⟨m, v, hrun', hend⟩ := (hu.of_completes hc).endsIdle_of_idle hc.busy
    exact ⟨_, v, hrun.trans hrun', hend⟩

end Sys2Proof.Machine

/-! ## What commands write, and what they leave

`exec_cases` names the ways a command can end. Those that leave a result are `blockEncode`, `blockDecode` and `convEncode`
with lengths that fit, of which `BlockEncoded`, `BlockDecoded` and `ConvEncoded` say everything. -/

namespace Sys2Proof.Machine

section Ends

variable {i : Instr} {s t : State}

/-- The end of a block encode in the words of R68. -/
theorem blockEncoded_of_loop (hi : s.inLen.toNat ≤ s.params.ibufBytes) (ho : 2 * s.inLen.toNat ≤ s.params.obufBytes) :
    BlockEncoded s
      (((blockEncodeLoop s.inLen.toNat 0 s).setOutput (2 * s.inLen.toNat) (16 * s.inLen.toNat)).complete .none) := by
  obtain ⟨hbad, -⟩ | ⟨-, -, h⟩ := blockEncode_cases s
  · omega
  · exact h ▸ blockEncode_blockEncoded hi ho

/-- The end of a block decode in the words of R69. -/
theorem blockDecoded_of_loop (hi : s.inLen.toNat ≤ s.params.ibufBytes) (he : s.inLen.toNat % 2 = 0)
    (ho : s.inLen.toNat / 2 ≤ s.params.obufBytes) :
    BlockDecoded s (((blockDecodeLoop (s.inLen.toNat / 2) 0 s).setOutput (s.inLen.toNat / 2)
      (8 * (s.inLen.toNat / 2))).complete .none) := by
  obtain ⟨hbad, -⟩ | ⟨-, hbad, -⟩ | ⟨-, -, hbad, -⟩ | ⟨-, -, -, h⟩ := blockDecode_cases s
  · omega
  · omega
  · omega
  · exact h ▸ blockDecode_blockDecoded hi he ho

/-- The end of a convolutional encode in the words of R81. -/
theorem convEncoded_of_run (hi : s.inLen.toNat ≤ s.params.ibufBytes) (ho : 2 * s.inLen.toNat + 1 ≤ s.params.obufBytes) :
    ConvEncoded s ((convLengths (convRun s)).complete .none) := by
  obtain ⟨hbad, -⟩ | ⟨-, -, h⟩ := convEncode_cases s
  · omega
  · exact h ▸ convEncode_convEncoded hi ho

/-- RES is ENCN's and DECC's (R17). -/
theorem Ended.res_eq (h : Ended i s t) (hi : i ≠ .encn) (hd : i ≠ .decc) : t.res = s.res := by
  cases h with
  | error e _ _ _ ht => rw [ht, State.raise_res]
  | single b _ hc _ => exact absurd hc (by simp [hi, hd])
  | encoded _ _ _ ht => rw [ht, blockEncodeLoop_frame]; rfl
  | decoded _ _ _ _ ht => rw [ht, blockDecodeLoop_frame]; rfl
  | convolved hi _ _ ht => rw [ht, (convRun_encoded hi).frame]; rfl

/-- SR, ACC and NB are the convolutional encoder's (R21, R22). -/
theorem Ended.encoder_eq (h : Ended i s t) (hi : i ≠ .conv) (hp : ¬(i = .penc ∧ s.scheme = .conv)) :
    t.sr = s.sr ∧ t.acc = s.acc ∧ t.nb = s.nb := by
  cases h with
  | error _ _ _ _ ht | single _ _ _ ht => rw [ht]; exact ⟨rfl, rfl, rfl⟩
  | encoded _ _ _ ht => rw [ht, blockEncodeLoop_frame]; exact ⟨rfl, rfl, rfl⟩
  | decoded _ _ _ _ ht => rw [ht, blockDecodeLoop_frame]; exact ⟨rfl, rfl, rfl⟩
  | convolved _ _ hc _ => exact absurd hc (not_or.mpr ⟨hi, hp⟩)

/-- ENCN and DECC leave the output alone (R66, R67). -/
theorem Ended.output_eq (h : Ended i s t) (hi : i = .encn ∨ i = .decc) :
    t.obuf = s.obuf ∧ t.outLen = s.outLen ∧ t.outBits = s.outBits := by
  cases h with
  | error e _ hn hd _ => exact absurd hi (not_or.mpr ⟨hn, hd⟩)
  | single b _ _ ht => rw [ht]; exact ⟨rfl, rfl, rfl⟩
  | encoded _ _ hc _ | decoded _ _ _ hc _ | convolved _ _ hc _ => obtain rfl | rfl := hi <;> simp at hc

/-- R24, R114: a command writes OBUF below the OUT_LEN it leaves, if at all. -/
theorem Ended.obufByte_of_outLen_le (h : Ended i s t) {j : Nat} (hj : t.outLen.toNat ≤ j) : t.obufByte j = s.obufByte j := by
  cases h with
  | error _ _ _ _ ht | single _ _ _ ht => rw [ht]; rfl
  | encoded hi ho _ ht =>
    obtain ⟨-, hlen, -, -, hrest⟩ := ht ▸ blockEncoded_of_loop hi ho
    exact hrest j (hlen ▸ hj)
  | decoded hi he ho _ ht =>
    obtain ⟨-, hlen, -, -, hrest⟩ := ht ▸ blockDecoded_of_loop hi he ho
    exact hrest j (hlen ▸ hj)
  | convolved hi ho _ ht =>
    obtain ⟨-, hlen, -, -, -, hrest, -⟩ := ht ▸ convEncoded_of_run hi ho
    exact hrest j (hlen ▸ hj)

end Ends

/-- Settles O28: `Completes`, field by field. -/
theorem commandsLeaveTheirOperandsAlone : Obligations.CommandsLeaveTheirOperandsAlone := by
  intro i s t h
  have hc := (exec_cases h).completes
  exact ⟨hc.params, hc.opw, hc.scheme, hc.arg, hc.inLen, hc.ibuf, hc.latency, hc.latencies, hc.script, hc.returned,
    hc.draws, hc.resets, hc.busy, hc.done⟩

/-- Settles O29: one lemma about `Ended` for each register group. -/
theorem eachResultRegisterHasItsWriters : Obligations.EachResultRegisterHasItsWriters := by
  intro i s t h
  have he := exec_cases h
  exact ⟨he.res_eq, he.encoder_eq, he.output_eq⟩

/-- Settles O30: beyond OUT_LEN by `Ended.obufByte_of_outLen_le`, and everywhere for a command that leaves OBUF. -/
theorem outputBytesBeyondTheResultAreKept : Obligations.OutputBytesBeyondTheResultAreKept := by
  intro i s t h j hj
  have he := exec_cases h
  obtain hlen | hsingle := hj
  · exact he.obufByte_of_outLen_le hlen
  · obtain ⟨hobuf, -⟩ := he.output_eq hsingle
    exact obufByte_congr hobuf he.completes.params he.completes.resets j

end Sys2Proof.Machine

/-! ## The codes on whole buffers -/

namespace Sys2Proof.Machine

/-! ### The syndrome (R62, R63) -/

/-- A single flip of position `p` has syndrome `p`. -/
theorem syndrome_singleFlip : ∀ p : BitVec 3, p ≠ 0#3 → syndrome (1#8 <<< (p.toNat - 1)) = p := by decide

theorem setWidth_extractLsb'_seven (c : Byte) : (c.extractLsb' 0 7).setWidth 8 = c &&& 0x7F#8 := by
  refine byte_ext fun k hk => ?_
  rw [bit_eq, BitVec.getLsbD_setWidth, decide_eq_true hk, Bool.true_and, ← bit_eq]
  by_cases h7 : k < 7
  · rw [bit_extractLsb' c 0 h7, Nat.zero_add, bit_and_7F c h7]
  · obtain rfl : k = 7 := by omega
    rw [bit_of_ge _ le_rfl, bit_eq, BitVec.getLsbD_and]
    simp

/-- The flip that corrects position `p`, in the 8-bit container. -/
theorem setWidth_singleFlip : ∀ p : BitVec 3, p ≠ 0#3 → (1#7 <<< (p.toNat - 1)).setWidth 8 = 1#8 <<< (p.toNat - 1) := by
  decide

/-- A correction flips the position that the syndrome names, which takes the syndrome to 0. -/
theorem syndrome_correct (c : Byte) : syndrome ((correct c).setWidth 8) = 0#3 := by
  unfold correct
  split
  · rename_i h0
    rw [setWidth_extractLsb'_seven, syndrome_and_7F, h0]
  · rename_i h0
    rw [BitVec.setWidth_xor, setWidth_extractLsb'_seven, setWidth_singleFlip _ h0, syndrome_xor, syndrome_and_7F,
      syndrome_singleFlip _ h0, BitVec.xor_self]

/-- Settles O12: `syndrome` is linear, 0 on codewords and `p` on a flip of position `p`. -/
theorem syndromeNamesTheFlippedPosition : Obligations.SyndromeNamesTheFlippedPosition := by
  refine ⟨syndrome_encNibble, fun c p hp => ?_, syndrome_and_7F, syndrome_correct⟩
  rw [syndrome_xor, syndrome_singleFlip p hp]

/-- Settles O14: `encNibble_xor` and `syndrome_xor`. -/
theorem blockCodeIsLinear : Obligations.BlockCodeIsLinear := ⟨encNibble_xor, syndrome_xor⟩

/-! ### The block code (R65, R116) -/

/-- ENCB completes without error only when the input fits in IBUF and the output in OBUF (R68). -/
theorem blockEncoded_of_exec_encb {s t : State} (h : exec .encb s = .next t) (herr : t.err = .none) : BlockEncoded s t := by
  cases h
  rw [blockEncode_err] at herr
  obtain ⟨hi, ho⟩ := blockEncodeError_eq_none.mp herr
  exact blockEncode_blockEncoded hi ho

/-- Settles O26: R68 on the state right after reset, whose input bytes are the free ones. -/
theorem unwrittenInputIsEncodedAsItStands : Obligations.UnwrittenInputIsEncodedAsItStands := by
  intro p n hi ho
  obtain ⟨hframe, hlen, -, hbytes, -⟩ :=
    blockEncode_blockEncoded (s := { State.resetWith p with inLen := n }) hi ho
  exact ⟨_, rfl, hframe.err, hlen, hbytes⟩

/-- R65 (a), (b): a codeword with at most one flipped bit decodes to its nibble. -/
theorem decCodeword_of_atMostOneFlip {n : Nibble} {c : Byte} (h : AtMostOneFlip (encNibble n) c) : decCodeword c = n := by
  obtain ⟨hclean, hflip, -⟩ := blockCodeCorrectsOneErrorOnly
  obtain rfl | ⟨k, hk, rfl⟩ := h
  · exact hclean n
  · exact hflip n k hk

/-- A byte is its two nibbles (R32). -/
theorem nibbles_append (B : Byte) : B.extractLsb' 4 4 ++ B.extractLsb' 0 4 = B := by
  refine byte_ext fun k hk => ?_
  rw [bit_append]
  split
  · rw [bit_extractLsb' B 0 (by omega), Nat.zero_add]
  · rw [bit_extractLsb' B 4 (by omega), show 4 + (k - 4) = k by omega]

/-- The round trip, on what the two commands leave. -/
theorem BlockEncoded.decoded {s t u v : State} (ht : BlockEncoded s t) (hv : BlockDecoded u v) (hlen : u.inLen = t.outLen)
    (hflips : ∀ j, j < t.outLen.toNat → AtMostOneFlip (t.obufByte j) (u.ibufByte j)) :
    v.outLen = s.inLen ∧ ∀ i, i < s.inLen.toNat → v.obufByte i = s.ibufByte i := by
  obtain ⟨-, htlen, -, htbytes, -⟩ := ht
  obtain ⟨-, hvlen, -, hvbytes, -⟩ := hv
  have hhalf : u.inLen.toNat / 2 = s.inLen.toNat := by
    rw [hlen, htlen]
    omega
  rw [hhalf] at hvlen hvbytes
  refine ⟨BitVec.eq_of_toNat_eq hvlen, fun i hi => ?_⟩
  obtain ⟨hhi, hlo⟩ := htbytes i hi
  have hflip0 := hflips (2 * i) (by omega)
  have hflip1 := hflips (2 * i + 1) (by omega)
  rw [hhi] at hflip0
  rw [hlo] at hflip1
  rw [hvbytes i hi, decCodeword_of_atMostOneFlip hflip0, decCodeword_of_atMostOneFlip hflip1, nibbles_append]

/-- Settles O25: the encoded length is even and fits, so DECB leaves what R69 says, and each received byte decodes to its
nibble (`BlockEncoded.decoded`). -/
theorem blockRoundTripSurvivesSingleErrors : Obligations.BlockRoundTripSurvivesSingleErrors := by
  intro s t u v hencb herr hlen hi ho hflips hdecb
  have ht := blockEncoded_of_exec_encb hencb herr
  have htlen : u.inLen.toNat = 2 * s.inLen.toNat := by
    obtain ⟨-, htlen, -⟩ := ht
    rw [hlen, htlen]
  have hv : BlockDecoded u v := by
    cases hdecb
    exact blockDecode_blockDecoded hi (by omega) (by omega)
  have hframe : BlockFrame u v := by
    obtain ⟨hframe, -⟩ := hv
    exact hframe
  exact ⟨hframe.err, ht.decoded hv hlen hflips⟩

/-! ### The convolutional code (R82) -/

/-- A bit of the output is a stream bit, or one of the four unused trailing bits, which are 0 (R31, R76). -/
theorem ConvEncoded.bit_obufByte {s t : State} (h : ConvEncoded s t) {j k : Nat} (hj : j < t.outLen.toNat) (hk : k < 8) :
    bit (t.obufByte j) k =
      if 8 * j + (7 - k) < 16 * s.inLen.toNat + 4 then convStreamBit s (8 * j + (7 - k)) else 0#1 := by
  obtain ⟨-, hlen, -, hstream, htail, -⟩ := h
  split
  · rename_i hused
    have hbit := hstream _ hused
    rwa [show (8 * j + (7 - k)) / 8 = j by omega, show 7 - (8 * j + (7 - k)) % 8 = k by omega] at hbit
  · obtain rfl : j = 2 * s.inLen.toNat := by omega
    exact bit_of_lowNibble htail (by omega)

/-- The stream is linear in the input bytes (R82). -/
theorem convStreamBit_xor {x y z : State} (hx : x.inLen = z.inLen) (hy : y.inLen = z.inLen)
    (hbytes : ∀ i, i < z.inLen.toNat → z.ibufByte i = x.ibufByte i ^^^ y.ibufByte i) (u : Nat) :
    convStreamBit z u = convStreamBit x u ^^^ convStreamBit y u := by
  have hinput : ∀ T, convInputBit z T = convInputBit x T ^^^ convInputBit y T := by
    intro T
    unfold convInputBit
    rw [hx, hy]
    split
    · rw [hbytes _ (by omega), bit_xor]
    · rfl
  have hpast : ∀ T k, convPastBit z T k = convPastBit x T k ^^^ convPastBit y T k := by
    intro T k
    unfold convPastBit
    split
    · exact hinput _
    · rfl
  unfold convStreamBit
  rw [hpast, hpast, hpast]
  split <;> ac_rfl

/-- Settles O23: each output bit is a stream bit or 0 (`ConvEncoded.bit_obufByte`), and the stream is linear. -/
theorem convIsLinear : Obligations.ConvIsLinear := by
  intro x y z tx ty tz hx hy hbytes hxe hye hze hxn hyn hzn j hj
  have henc := convEncoded_of_exec_conv hxe hxn
  have henc' := convEncoded_of_exec_conv hye hyn
  have henc'' := convEncoded_of_exec_conv hze hzn
  have hlens : tx.outLen.toNat = tz.outLen.toNat ∧ ty.outLen.toNat = tz.outLen.toNat := by
    obtain ⟨-, hlen, -⟩ := henc
    obtain ⟨-, hlen', -⟩ := henc'
    obtain ⟨-, hlen'', -⟩ := henc''
    rw [hlen, hlen', hlen'', hx, hy]
    exact ⟨rfl, rfl⟩
  obtain ⟨hlenx, hleny⟩ := hlens
  refine byte_ext fun k hk => ?_
  rw [bit_xor, henc.bit_obufByte (hlenx ▸ hj) hk, henc'.bit_obufByte (hleny ▸ hj) hk, henc''.bit_obufByte hj hk, hx, hy]
  split
  · exact convStreamBit_xor hx hy hbytes _
  · rfl

end Sys2Proof.Machine

/-! ## The host's side

What an access does is one equation per kind of access while idle, and `Accessed.locked` while BUSY. The register numbers
of the statements are those of `Reg.number`. -/

namespace Sys2Proof.Machine

/-! ### Registers while idle (R13 to R20, R36) -/

section Registers

variable {s : State}

/-- A write to a register number is a write to its register. -/
theorem access_regWrite (s : State) (r : Reg) (v : Word) : s.access (.regWrite r.number v) = s.writeReg r v := by
  show s.hostRegWrite r.number v = _
  rw [State.hostRegWrite, Reg.ofNumber_number]

/-- Unassigned register numbers ignore a write (R36). -/
theorem access_regWrite_of_ge {n : Nat} (hn : 8 ≤ n) (v : Word) : s.access (.regWrite n v) = s := by
  show s.hostRegWrite n v = s
  rw [State.hostRegWrite, Reg.ofNumber_of_ge hn]

theorem access_regRead_of_idle (hb : s.busy = false) (r : Reg) :
    s.access (.regRead r.number) = s.giveBack (.word (s.regWord r)) := by
  show s.hostRegRead r.number = _
  simp [State.hostRegRead, hb, Reg.ofNumber_number]

/-- Unassigned register numbers read 0 (R36). -/
theorem access_regRead_of_ge (hb : s.busy = false) {n : Nat} (hn : 8 ≤ n) :
    s.access (.regRead n) = s.giveBack (.word 0#32) := by
  show s.hostRegRead n = _
  simp [State.hostRegRead, hb, Reg.ofNumber_of_ge hn]

/-- CFG reads as its one bit (R15). -/
theorem regWord_cfg (s : State) : s.regWord .cfg = if s.scheme = .conv then 1#32 else 0#32 := by
  unfold State.regWord
  cases s.scheme <;> rfl

/-- STATUS while idle: DONE at bit 1, ERR at bits 7 to 4 (R13). -/
theorem regWord_status_of_idle (hb : s.busy = false) :
    s.regWord .status = (if s.done then 2#32 else 0#32) ||| (s.err.code.setWidth 32 <<< 4) := by
  unfold State.regWord State.statusWord
  rw [hb]
  cases s.done <;> cases s.err <;> rfl

/-- CFG takes bit 0 of the value written (R15). -/
theorem ofBit_bit_zero (v : Word) : Scheme.ofBit (bit v 0) = if v.getLsbD 0 then .conv else .block := by
  rw [bit_eq, Scheme.ofBit]
  cases v.getLsbD 0 <;> rfl

end Registers

/-- Settles O33: an idle read gives `State.regWord` of the register. -/
theorem idleRegisterReads : Obligations.IdleRegisterReads := by
  intro s hb
  have hread := access_regRead_of_idle hb
  refine ⟨hread .cmd, ?_, ?_, hread .arg, hread .res, hread .inLen, hread .outLen, hread .outBits,
    fun n hn => access_regRead_of_ge hb hn⟩
  · rw [← regWord_cfg]
    exact hread .cfg
  · rw [← regWord_status_of_idle hb]
    exact hread .status

/-- Settles O34: an idle write is `State.writeReg` of the register. -/
theorem idleRegisterWrites : Obligations.IdleRegisterWrites := by
  intro s v hb
  have hwrite : ∀ r, s.access (.regWrite r.number v) = s.writeReg r v := fun r => access_regWrite s r v
  refine ⟨(hwrite .cfg).trans ?_, (hwrite .arg).trans ?_, (hwrite .inLen).trans ?_, (hwrite .status).trans ?_,
    (hwrite .res).trans ?_, (hwrite .outLen).trans ?_, (hwrite .outBits).trans ?_,
    fun n hn => access_regWrite_of_ge hn v⟩
  · simp [State.writeReg, hb, ofBit_bit_zero]
  · simp [State.writeReg, hb, BitVec.setWidth_eq_extractLsb']
  all_goals simp [State.writeReg, hb]

/-! ### Buffers while idle (R23, R24) -/

section Buffers

variable {s : State} {i : Nat}

theorem access_ibufWrite_of_lt (hb : s.busy = false) (hi : i < s.params.ibufBytes) (b : Byte) :
    s.access (.ibufWrite i b) = s.writeIbuf i b := by
  show s.hostIbufWrite i b = _
  simp [State.hostIbufWrite, hb, hi]

theorem access_ibufWrite_of_ge (hi : s.params.ibufBytes ≤ i) (b : Byte) : s.access (.ibufWrite i b) = s := by
  show s.hostIbufWrite i b = s
  simp [State.hostIbufWrite, hi]

theorem access_ibufRead_of_idle (hb : s.busy = false) :
    s.access (.ibufRead i) = s.giveBack (.byte (if i < s.params.ibufBytes then s.ibufByte i else 0#8)) := by
  show s.hostIbufRead i = _
  by_cases hi : i < s.params.ibufBytes
  · simp [State.hostIbufRead, hb, hi]
  · simp [State.hostIbufRead, hb, hi, Nat.le_of_not_lt hi]

theorem access_obufRead_of_idle (hb : s.busy = false) :
    s.access (.obufRead i) = s.giveBack (.byte (if i < s.params.obufBytes then s.obufByte i else 0#8)) := by
  show s.hostObufRead i = _
  by_cases hi : i < s.params.obufBytes
  · simp [State.hostObufRead, hb, hi]
  · simp [State.hostObufRead, hb, hi, Nat.le_of_not_lt hi]

end Buffers

/-- Settles O35: one equation for each kind of buffer access, and `ibufByte_writeIbuf` for what is read after a write. -/
theorem idleBufferAccesses : Obligations.IdleBufferAccesses := by
  intro s i b hb
  refine ⟨fun hi => ?_, fun hi => access_ibufWrite_of_ge hi b, rfl, access_ibufRead_of_idle hb, access_obufRead_of_idle hb⟩
  rw [access_ibufWrite_of_lt hb hi]
  refine ⟨rfl, ?_, fun j hj => ?_⟩
  · rw [ibufByte_writeIbuf, if_pos rfl]
  · rw [ibufByte_writeIbuf, if_neg hj]

/-! ### Accesses while BUSY (R115) -/

section Busy

variable {s : State}

/-- STATUS reads as BUSY alone when DONE and ERR are 0 (R13). -/
theorem statusWord_of_busy (hb : s.busy = true) (hd : s.done = false) (he : s.err = .none) : s.statusWord = 1#32 := by
  rw [State.statusWord, hb, hd, he]
  rfl

/-- Only STATUS is readable (R115). -/
theorem access_regRead_of_busy (hb : s.busy = true) {n : Nat} (hn : n ≠ 2) :
    s.access (.regRead n) = (s.giveBack (.word (Config.busyWord s.params.serial s.draws))).drawn := by
  have hstatus : Reg.ofNumber n ≠ some .status := fun h => hn (Reg.ofNumber_eq h)
  show s.hostRegRead n = _
  rw [State.hostRegRead, if_pos ⟨hb, hstatus⟩]

theorem access_ibufRead_of_busy (hb : s.busy = true) (i : Nat) :
    s.access (.ibufRead i) = (s.giveBack (.byte (Config.busyByte s.params.serial s.draws))).drawn := by
  show s.hostIbufRead i = _
  rw [State.hostIbufRead, if_pos hb]

theorem access_obufRead_of_busy (hb : s.busy = true) (j : Nat) :
    s.access (.obufRead j) = (s.giveBack (.byte (Config.busyByte s.params.serial s.draws))).drawn := by
  show s.hostObufRead j = _
  rw [State.hostObufRead, if_pos hb]

end Busy

/-- Settles O36: `Accessed.locked` for what an access changes, and one equation for each kind of read. -/
theorem busyLocksTheHostOut : Obligations.BusyLocksTheHostOut := by
  intro s a hb
  refine ⟨(access_cases a s).locked hb, fun hd he => ?_, fun n _ hn => access_regRead_of_busy hb hn,
    fun k _ => access_ibufRead_of_busy hb k, fun k _ => access_obufRead_of_busy hb k⟩
  rw [← statusWord_of_busy hb hd he]
  exact access_readStatus s

/-! ### Transactions and pseudo-operations (R54, R55) -/

/-- A byte comes back from the 32-bit data of its transaction. -/
theorem setWidth_setWidth_byte (b : Byte) : (b.setWidth 32).setWidth 8 = b := by
  rw [BitVec.setWidth_setWidth_of_le b (by decide), BitVec.setWidth_eq]

/-- Settles O38: each kind of line is read back from its triple; only `IW` narrows its data. -/
theorem transactionsDetermineTheirLines : Obligations.TransactionsDetermineTheirLines := by
  intro a x h
  cases a with
  | regWrite n v => cases h; rfl
  | regRead n => cases h; rfl
  | ibufRead i => cases h; rfl
  | obufRead j => cases h; rfl
  | obufWrite j b => cases h
  | ibufWrite i b =>
    cases h
    have hlt : (b.setWidth 32).toNat < 256 := by
      rw [BitVec.toNat_setWidth_of_le (by decide)]
      exact b.isLt
    show (if (b.setWidth 32).toNat < 256 then some (Access.ibufWrite i ((b.setWidth 32).setWidth 8)) else none) = _
    rw [if_pos hlt, setWidth_setWidth_byte]

/-- LOAD's writes, as the table's list. -/
theorem storeBytes_eq_map (i : Nat) (bs : List Byte) :
    HostLine.storeBytes i bs = (bs.zipIdx i).map fun x => .access (.ibufWrite x.2 x.1) := by
  induction bs generalizing i with
  | nil => rfl
  | cons b bs ih => simp [HostLine.storeBytes, ih]

/-- LOOPBACK's copies, as the table's list. -/
theorem copyBytes_eq_flatMap (n i : Nat) :
    HostLine.copyBytes n i = (List.range' i n).flatMap fun j => [.access (.obufRead j), .storeBack j] := by
  induction n generalizing i with
  | zero => rfl
  | succ n ih => simp [HostLine.copyBytes, ih, List.range'_succ]

/-- Settles O39: the rows of R55 are the arms of `HostLine.expand`; LOAD's and LOOPBACK's loops are the lists of
`storeBytes_eq_map` and `copyBytes_eq_flatMap`. -/
theorem pseudoOperationsExpand : Obligations.PseudoOperationsExpand := by
  intro r op v m b bs i k
  refine ⟨rfl, ?_, rfl, ?_, rfl, rfl, rfl, rfl, rfl, ?_, rfl⟩
  · rw [HostLine.expand, lastWord, bit_eq]
    cases v.getLsbD 0 <;> rfl
  · rw [HostLine.expand, storeBytes_eq_map]
    rfl
  · rw [HostLine.expand, lastWord, copyBytes_eq_flatMap, List.range_eq_range']
    rfl

end Sys2Proof.Machine
